-- ==== Sys2Proof/Word.lean ====
section
/-! DEFINITION. The two word types of the core: a 32-bit register, command word or codeword, and a byte of `MSG` or `OUT`. -/

namespace Sys2Proof

/-- A 32-bit word: a host register, a command word (`30_encoding.md` R70), a codeword (R78). -/
abbrev Word := BitVec 32

/-- One byte of the message memory or of the output stream (`20_memory.md` R50). -/
abbrev Byte := BitVec 8

end Sys2Proof
end

