-- ==== Sys2Proof/Syntax.lean ====
section
/-! DEFINITION. The five commands of `opcode_table.json` (`30_encoding.md` R70, R73), one constructor per row: nothing else is
an instruction of this core. -/

namespace Sys2Proof

/-- A command with its operand A, the 21-bit field `a` of the command word (`30_encoding.md` R71, R72).
The second and third operands, `MLEN` and the message memory, are read from the state. -/
inductive Instr where
  /-- `CW payload`: assemble one codeword (`40_codeword_assembler.md` R104). -/
  | cw (payload : BitVec 21)
  /-- `PACK wpos, "text"`: pack the message from word position `a[3:0]`; `a[20:4]` must be 0 (`41_text_packer.md` R126). -/
  | pack (a : BitVec 21)
  /-- `ADDR address`: place an address (`42_address_placement.md` R143). -/
  | addr (address : BitVec 21)
  /-- `ENC address, "text"`: encode a whole transmission (`43_transmission_assembler.md` R152). -/
  | enc (address : BitVec 21)
  /-- `LEN address, n`: predict the word count for `n = MLEN` characters (`44_length_calculator.md` R181). -/
  | len (address : BitVec 21)
  deriving DecidableEq, Repr

end Sys2Proof
end

