-- ==== Sys2Proof/WellFormed.lean ====
section
/-! DEFINITION. Which commands have a command word. The operand field is 21 bits wide, so only `PACK` has a check left:
its operand is a word position, `a[20:4]` must be 0 (`30_encoding.md` R72, R74). -/

namespace Sys2Proof

/-- The operand is one the encoding admits (`30_encoding.md` R72: "`a[20:4]` must be 0" for `PACK`; every value for the others). -/
def Instr.wellFormed : Instr → Bool
  | .cw _ => true
  | .pack a => a.extractLsb' 4 17 == 0#17
  | .addr _ => true
  | .enc _ => true
  | .len _ => true

end Sys2Proof
end

