-- ==== Sys2Proof/Decode.lean ====
section
/-! DEFINITION. Command words to commands and back (`30_encoding.md` R71 to R75). A command word is one 32-bit register
write; the core fetches nothing, so no byte order comes in (`20_memory.md` R54, R62). -/

namespace Sys2Proof

/-- Why a command word is reserved (`30_encoding.md` R74), by name. -/
inductive DecodeError where
  /-- `op` is 0, 6 or 7. -/
  | reservedOpcode (op : BitVec 3)
  /-- A bit of 28:21 is 1. -/
  | reservedBits (zero : BitVec 8)
  /-- `PACK` with a bit of 20:4 that is 1. -/
  | packPositionTooWide (a : BitVec 21)
  deriving DecidableEq, Repr

/-- Field `op`, bits 31:29 (R71). -/
def fieldOp (c : Word) : BitVec 3 := c.extractLsb' 29 3

/-- Field `zero`, bits 28:21 (R71). -/
def fieldZero (c : Word) : BitVec 8 := c.extractLsb' 21 8

/-- Field `a`, bits 20:0 (R71). -/
def fieldA (c : Word) : BitVec 21 := c.extractLsb' 0 21

/-- The command a command word selects, or the reason it is reserved (R73, R74). -/
def decode (c : Word) : Except DecodeError Instr :=
  if fieldZero c ≠ 0#8 then .error (.reservedBits (fieldZero c))
  else
    match (fieldOp c).toNat with
    | 1 => .ok (.cw (fieldA c))
    | 2 =>
      if (fieldA c).extractLsb' 4 17 = 0#17 then .ok (.pack (fieldA c))
      else .error (.packPositionTooWide (fieldA c))
    | 3 => .ok (.addr (fieldA c))
    | 4 => .ok (.enc (fieldA c))
    | 5 => .ok (.len (fieldA c))
    | _ => .error (.reservedOpcode (fieldOp c))

/-- The opcode of a command (R73). -/
def Instr.opcode : Instr → BitVec 3
  | .cw _ => 1#3
  | .pack _ => 2#3
  | .addr _ => 3#3
  | .enc _ => 4#3
  | .len _ => 5#3

/-- Operand A of a command (R72). -/
def Instr.operand : Instr → BitVec 21
  | .cw p => p
  | .pack a => a
  | .addr a => a
  | .enc a => a
  | .len a => a

/-- The command word of a command: `op ‖ 0 ‖ a` (R71, R76). -/
def encode (i : Instr) : Word := i.opcode ++ 0#8 ++ i.operand

/-- The rows of the opcode map, (match, mask), in the order of the table (R73, `opcode_table.json`). -/
def opcodeRows : List (Word × Word) :=
  [(0x20000000#32, 0xFFE00000#32), (0x40000000#32, 0xFFFFFFF0#32), (0x60000000#32, 0xFFE00000#32),
    (0x80000000#32, 0xFFE00000#32), (0xA0000000#32, 0xFFE00000#32)]

/-- A command word matches a row: `(c & mask) = match` (R73). -/
def rowMatches (c : Word) (row : Word × Word) : Bool := c &&& row.2 == row.1

/-- The word `w` of `nbits` bits as a 32-bit command word; the bits above `nbits` are 0. -/
def tableWord (nbits w : Nat) : Word := BitVec.ofNat 32 (w % 2 ^ nbits)

/-- The command the decoder reads from a word numbered as `opcode_table.json` numbers it. -/
def decodeTableWord (nbits w : Nat) : Option Instr := (decode (tableWord nbits w)).toOption

end Sys2Proof
end

