-- ==== Sys2Proof/Config.lean ====
section
/-! DEFINITION. What one implementation fixes: the open width `LEN_W`, the limits the packer and the sequencer count to, and
the one free value of the model. The wire constants (`GEN`, `SYNC`, `IDLE`, the preamble, `TEXT_DATA_FLAG`) belong to this
configuration too (`10_state.md` R34); they stand in `Machine/Constants.lean`, under the same namespace. -/

namespace Sys2Proof.Config

/-- `LEN_W`, the width of `MLEN` and `CIDX` (`00_scope.md` R5): OPEN in the spec, which suggests 16.
DESIGN CHOICE (log 4), unsafe: a claim that needs messages below 2^16 bytes rests on it. -/
abbrev lenW : Nat := 16

/-- What an index of the message memory holds that the host has not written since power-up. No rule gives it.
DESIGN CHOICE (log 2), safe: a free value, with no body, so no proof can see it; the same index gives the same byte
each time (`20_memory.md` R51, "idempotent"). -/
opaque unplacedMsgByte : Nat → Byte

/-- `BATCH_WORDS`: codewords per batch, the Sync not counted (`00_scope.md` R5). -/
def batchWords : Nat := 16

/-- `GROUP_WORDS`: a Sync and its 16 codewords (`00_scope.md` R5). -/
def groupWords : Nat := 17

end Sys2Proof.Config
end

