-- ==== Sys2Proof/Machine/Constants.lean ====
section
/-! DEFINITION. The hardwired wire constants (`00_scope.md` R5, `10_state.md` R34), under the namespace of the configuration. -/

namespace Sys2Proof.Config

/-- `GEN`, the generator polynomial, 11 bits, degree 10 (`30_encoding.md` R87). -/
def gen : BitVec 11 := 0b11101101001#11

/-- `SYNC` (`30_encoding.md` R82). -/
def sync : Word := 0x7CD215D8#32

/-- `IDLE` (`30_encoding.md` R83, `90_conflicts.md` C1). -/
def idle : Word := 0x7A89C197#32

/-- `PREAMBLE_WORD` (`30_encoding.md` R84). -/
def preambleWord : Word := 0xAAAAAAAA#32

/-- `PREAMBLE_WORDS` (`30_encoding.md` R84). -/
def preambleWords : Nat := 18

/-- `TEXT_DATA_FLAG` (`00_scope.md` R5, `42_address_placement.md` R141). PRESUMED (log 5): the spec takes the value from
general knowledge and asks for a configuration field; the functions that use it take it as an argument, so that a claim can
be stated for any value. -/
def textDataFlag : BitVec 2 := 0b11#2

end Sys2Proof.Config
end

