-- ==== Sys2Proof/Machine/State.lean ====
section
/-! DEFINITION. The state of the core (`10_state.md` R20), the message memory beside it, and the host's moves to come; the
reasons a step can stop; the state after reset (R37). -/

namespace Sys2Proof.Machine

/-- A byte space as a list of cells. Its one canonical form, `Memory.wf`, lists the written indices strictly rising; an
index that is not listed has no value of its own (`MSG`: log 2; `OUT`: log 9). -/
abbrev Memory := List Host.Cell

/-- The canonical form: indices strictly rising. -/
abbrev Memory.wf (m : Memory) : Prop := m.Pairwise (fun x y => x.1 < y.1)

/-- The phases of the sequencer, the values of `PH` (`10_state.md` R21), in the order of their codes 0 to 8. Codes 9 to 15
are "unreachable; no rule writes them" and have no constructor (log 7). -/
inductive Phase where
  /-- `PH_IDLE`, wait for a command. -/
  | idle
  /-- `PH_PRE`, emit one preamble word (R153). -/
  | pre
  /-- `PH_SYNC0`, emit the first Sync (R154). -/
  | sync0
  /-- `PH_PADPRE`, emit one Idle before the address codeword (R155). -/
  | padPre
  /-- `PH_ADDRW`, emit the address codeword (R156). -/
  | addrW
  /-- `PH_MSG`, consume one message byte, or flush, or leave (R128 to R130). -/
  | msg
  /-- `PH_MSYNC`, emit a Sync at a batch boundary (R131). -/
  | msync
  /-- `PH_TAIL`, emit the trailing Idle (R158). -/
  | tail
  /-- `PH_PADPOST`, emit one Idle of batch padding, or finish (R159). -/
  | padPost
  deriving DecidableEq, Repr

/-- The six host registers, by name (`10_state.md` R38). -/
inductive HostReg where
  | cmd
  | mlen
  | status
  | r0
  | r1
  | ocnt
  deriving DecidableEq, Repr

/-- What the host can do to the core (`10_state.md` R38, `70_reset_and_hazards.md` R210 to R215). DESIGN CHOICE (log 1):
one move lands between two steps, and the list of moves to come stands in State. -/
inductive HostMove where
  /-- Write a host register. A write to `CMD` is the launch of a command (R73). -/
  | write (r : HostReg) (v : Word)
  /-- Read a host register: no side effect; what the host sees is `hostRead`. -/
  | read (r : HostReg)
  /-- Place a byte of the message memory (R212 item 4). -/
  | placeMsg (i : BitVec Config.lenW) (b : Byte)
  /-- Assert the reset input (R210). -/
  | reset
  /-- Do nothing for one step of the core. -/
  | quiet
  /-- Poll `STATUS` until `BUSY = 0` (R214). -/
  | awaitIdle
  deriving DecidableEq, Repr

/-- The core raises no exception and recognises no failure (`60_exceptions.md` R190): there is no fault. -/
inductive Fault where
  deriving DecidableEq, Repr

/-- Why the model answers no next state. -/
inductive Refusal where
  /-- A command without a meaning. No arm of `exec` raises it. Safe. -/
  | notModelled (mnemonic : String)
  /-- Raised by the host move that would change a byte of `MSG[0..MLEN-1]` while a command runs: "the model gives the host
  no such move" (`70_reset_and_hazards.md` R213, `93_implementation_defined.md` U5; log 8). Safe. -/
  | messageChangedWhileBusy
  deriving DecidableEq, Repr

/-- The registers and the stream of `10_state.md` R20, the message memory (R35 (a)), and the host's moves to come (log 1). -/
structure State where
  /-- `PH`, the phase the next step executes (R21). -/
  ph : Phase
  /-- `OP`, opcode of the last accepted command (R22). -/
  op : BitVec 3
  /-- `A`, operand A of the last accepted command (R22). -/
  a : BitVec 21
  /-- `MLEN`, message length (R23). -/
  mlen : BitVec Config.lenW
  /-- `CIDX`, index of the next message byte (R24). -/
  cidx : BitVec Config.lenW
  /-- `ACC`, the packer's accumulator (R25). -/
  acc : BitVec 20
  /-- `NBITS`, bits held in `ACC` (R26). -/
  nbits : BitVec 5
  /-- `WPOS`, Word Position (R27). -/
  wpos : BitVec 5
  /-- `PCNT`, preamble words emitted (R28). -/
  pcnt : BitVec 5
  /-- `PADN`, Idle words owed before the address codeword (R29). -/
  padn : BitVec 3
  /-- `GCNT`, words of the sync region modulo 17 (R30). -/
  gcnt : BitVec 5
  /-- `R0`, result register 0 (R31). -/
  r0 : Word
  /-- `R1`, result register 1 (R31). -/
  r1 : Word
  /-- `DONE`, the last accepted command has completed (R32). -/
  done : Bool
  /-- `OCNT`, bytes written to `OUT` since the last launch (R33). -/
  ocnt : BitVec 32
  /-- `OUT`, the output stream (R33). A byte at or above `OCNT` has no defined value (log 9). -/
  out : Memory
  /-- `MSG`, the message memory, owned by the host (`20_memory.md` R51). -/
  msg : Memory
  /-- The model's own field: the host's moves to come, first one first (log 1). -/
  host : List HostMove
  deriving DecidableEq, Repr

/-- Right after reset (`10_state.md` R37): every register 0, `PH = PH_IDLE`; no byte of `OUT` is defined; the host has
placed no message byte (log 2) and has no move to come (log 1). -/
def State.reset : State where
  ph := .idle
  op := 0#3
  a := 0#21
  mlen := 0#Config.lenW
  cidx := 0#Config.lenW
  acc := 0#20
  nbits := 0#5
  wpos := 0#5
  pcnt := 0#5
  padn := 0#3
  gcnt := 0#5
  r0 := 0#32
  r1 := 0#32
  done := false
  ocnt := 0#32
  out := []
  msg := []
  host := []

end Sys2Proof.Machine
end

