-- ==== Sys2Proof/Machine/Flags.lean ====
section
/-! DEFINITION. The two status flags (`10_state.md` R32): `BUSY`, combinational, and every write of `DONE`; the codes of
`PH`. The core has no condition codes. -/

namespace Sys2Proof.Machine

/-- The 4-bit code of a phase (`10_state.md` R21). -/
def Phase.code : Phase → BitVec 4
  | .idle => 0#4
  | .pre => 1#4
  | .sync0 => 2#4
  | .padPre => 3#4
  | .addrW => 4#4
  | .msg => 5#4
  | .msync => 6#4
  | .tail => 7#4
  | .padPost => 8#4

/-- `BUSY = (PH != PH_IDLE)` (R32). -/
def State.busy (s : State) : Bool := s.ph != .idle

/-- A command completes: `DONE <- 1; PH <- PH_IDLE` (R32, R104, R130, R159). -/
def complete (s : State) : State := { s with done := true, ph := .idle }

/-- A command enters the sequencer at a phase: `DONE <- 0; PH <- p` (R32, R126, R152). -/
def start (p : Phase) (s : State) : State := { s with done := false, ph := p }

/-- The word of register `STATUS`: bit 0 `BUSY`, bit 1 `DONE`, the rest 0 (R38). -/
def statusWord (s : State) : Word := 0#30 ++ BitVec.ofBool s.done ++ BitVec.ofBool s.busy

/-- The word of register `CMD` as the host reads it back: `OP ‖ 0 ‖ A` (R22, R38). -/
def cmdWord (s : State) : Word := s.op ++ 0#8 ++ s.a

end Sys2Proof.Machine
end

