-- ==== Sys2Proof/Machine/Operands.lean ====
section
/-! DEFINITION. The operand forms: fields of operand A (`30_encoding.md` R72), bits of a message byte
(`41_text_packer.md` R120, R121), and what the message memory holds. No operand is signed, scaled or extended in sign (R72). -/

namespace Sys2Proof.Machine

/-- `A[3:0]`, the initial word position of `PACK`, as a value of `WPOS` (`41_text_packer.md` R126). -/
def startWordPosition (a : BitVec 21) : BitVec 5 := (a.extractLsb' 0 4).setWidth 5

/-- `address[1:0]`, the frame of the address codeword (`42_address_placement.md` R140). -/
def frameBits (address : BitVec 21) : BitVec 2 := address.extractLsb' 0 2

/-- `address[20:3]`, the part of an address that its codeword carries (`42_address_placement.md` R141). -/
def addressHigh (address : BitVec 21) : BitVec 18 := address.extractLsb' 3 18

/-- The 7 bits of a character in the order they are packed, bit 0 first; bit 7 is read by nothing (R120, R121). -/
def charBits (c : Byte) : List Bool :=
  [c.getLsbD 0, c.getLsbD 1, c.getLsbD 2, c.getLsbD 3, c.getLsbD 4, c.getLsbD 5, c.getLsbD 6]

/-- The value listed for an index of a byte space, if one is. -/
def Memory.read? : Memory → Nat → Option Byte
  | [], _ => none
  | (k, b) :: m, i => if k = i then some b else Memory.read? m i

/-- `MSG[i]`: the byte the host placed there, or the free value of an index it never wrote (log 2). -/
def msgByte (m : Memory) (i : Nat) : Byte := (m.read? i).getD (Config.unplacedMsgByte i)

/-- The message, `MSG[0..MLEN-1]` (`20_memory.md` R51, R56). -/
def State.message (s : State) : List Byte := (List.range s.mlen.toNat).map (msgByte s.msg)

end Sys2Proof.Machine
end

