-- ==== Sys2Proof/Machine/Ops.lean ====
section
/-! DEFINITION. The shared operations over memory and registers (`00_scope.md` R7): writing a byte space, `MemRead`,
`MemWrite`, `Emit`, the word counter, the common part of a launch, reset. There is no exception entry and no return from
one to share: the core has no trap mechanism (`60_exceptions.md` R190, R193, R194). -/

namespace Sys2Proof.Machine

/-- Write one byte of a byte space, keeping the canonical form. -/
def Memory.write : Memory → Nat → Byte → Memory
  | [], i, b => [(i, b)]
  | (k, c) :: m, i, b =>
    if i < k then (i, b) :: (k, c) :: m
    else if i = k then (i, b) :: m
    else (k, c) :: Memory.write m i b

/-- `MemRead(i, 1)` (`20_memory.md` R51). -/
def memRead (s : State) (i : BitVec Config.lenW) : Byte := msgByte s.msg i.toNat

/-- `SER32(w)`: the four bytes of a word, least significant first (`43_transmission_assembler.md` R151). -/
def ser32 (w : Word) : List Byte := [w.extractLsb' 0 8, w.extractLsb' 8 8, w.extractLsb' 16 8, w.extractLsb' 24 8]

/-- `MemWrite(j, 1, b)` for each byte in turn, `j` counting up from a first index (`20_memory.md` R52). -/
def memWrites : List Byte → BitVec 32 → Memory → Memory
  | [], _, m => m
  | b :: bs, j, m => memWrites bs (j + 1#32) (m.write j.toNat b)

/-- `Emit(w)`, the word serialiser: the bytes of `w` at `OUT[OCNT..OCNT+3]` and `OCNT` past them, in one step
(`00_scope.md` R7; R151, `20_memory.md` R53, R57). -/
def emit (w : Word) (s : State) : State :=
  { s with out := memWrites (ser32 w) s.ocnt s.out, ocnt := s.ocnt + 4#32 }

/-- `(v + 1) mod 17` in 5 bits, the update of `GCNT` (`10_state.md` R30). -/
def nextGroupCount (v : BitVec 5) : BitVec 5 := BitVec.ofNat 5 ((v.toNat + 1) % Config.groupWords)

/-- `Emit(w); GCNT <- (GCNT + 1) mod 17`: a word of the sync region (`10_state.md` R30). -/
def emitCounted (w : Word) (s : State) : State := { emit w s with gcnt := nextGroupCount s.gcnt }

/-- The next word position, `WPOS + 1` in 5 bits (`10_state.md` R27). -/
def nextWordPosition (v : BitVec 5) : BitVec 5 := v + 1#5

/-- The common part of every launch: `OP <- c[31:29]; A <- c[20:0]; OCNT <- 0` (`30_encoding.md` R73). -/
def launch (op : BitVec 3) (a : BitVec 21) (s : State) : State := { s with op := op, a := a, ocnt := 0#32 }

/-- A command written while `BUSY = 0` has the effect `f`; written while `BUSY = 1` it is ignored
(`70_reset_and_hazards.md` R214). No command raises anything (`60_exceptions.md` R190). -/
def whenIdle (f : State → State) (s : State) : Host.Outcome State Fault Refusal :=
  .next (if s.busy then s else f s)

/-- The reset input (`70_reset_and_hazards.md` R210): every register takes its reset value. The message memory is not
touched, and the cells of `OUT` keep what they have, none of them defined any more (log 9). -/
def resetCore (s : State) : State := { State.reset with out := s.out, msg := s.msg, host := s.host }

/-- `OUT[j]` where it is defined, that is below `OCNT` (`10_state.md` R33, `93_implementation_defined.md` U6). -/
def State.outByte? (s : State) (j : Nat) : Option Byte := if j < s.ocnt.toNat then s.out.read? j else none

/-- `OUT[0..OCNT-1]`, what the host reads at the end of a run (`70_reset_and_hazards.md` R215, R217). -/
def State.outBytes (s : State) : List (Option Byte) := (List.range s.ocnt.toNat).map s.out.read?

end Sys2Proof.Machine
end

