-- ==== Sys2Proof/Machine/Codeword.lean ====
section
/-! DEFINITION. The codeword assembler (`40_codeword_assembler.md`): the CRC-10 polynomial generator, the parity-bit
calculator, the assembler that joins them, and the command `CW`. -/

namespace Sys2Proof.Machine

/-- `p ‖ r`: a payload above ten low bits, 31 bits (R100, R101, R103). -/
def payloadCrc (p : BitVec 21) (r : BitVec 10) : BitVec 31 := p ++ r

/-- One column of the division: where bit `30 - col` of the dividend is 1, XOR in `GEN << (20 - col)` (R100). -/
def crcColumn (acc : BitVec 31) (col : Nat) : BitVec 31 :=
  if acc.getLsbD (30 - col) then acc ^^^ (Config.gen.setWidth 31 <<< (20 - col)) else acc

/-- All 21 columns, most significant first (R100). -/
def crcDivide (acc : BitVec 31) : BitVec 31 := (List.range 21).foldl crcColumn acc

/-- `CRC10(p)`: the low 10 bits left of `p ‖ 0000000000` (R100). -/
def crc10 (p : BitVec 21) : BitVec 10 := (crcDivide (payloadCrc p 0#10)).extractLsb' 0 10

/-- The product of `GEN` and the polynomial `q` over GF(2), in 31 bits (R101 law 1). -/
def genMultiple (q : BitVec 21) : BitVec 31 :=
  (List.range 21).foldl (fun acc i => if q.getLsbD i then acc ^^^ (Config.gen.setWidth 31 <<< i) else acc) 0#31

/-- One step of the bit-serial form of the same function (R101 law 3): `fb <- r[9] ^ p[k]; r <- (r << 1)[9:0]; if fb = 1
then r <- r ^ 0x369`. -/
def crcSerialStep (p : BitVec 21) (r : BitVec 10) (k : Nat) : BitVec 10 :=
  if r.getLsbD 9 ^^ p.getLsbD k then (r <<< 1) ^^^ 0x369#10 else r <<< 1

/-- The bit-serial form: `k` from 20 down to 0, starting at 0 (R101 law 3). -/
def crc10Serial (p : BitVec 21) : BitVec 10 := (List.range 21).reverse.foldl (crcSerialStep p) 0#10

/-- The number of 1 bits (`00_scope.md` R6). -/
def popcount {w : Nat} (v : BitVec w) : Nat := (List.range w).countP v.getLsbD

/-- `PAR31(v)`: XOR-fold every bit (R102). -/
def par31 (v : BitVec 31) : Bool := (List.range 31).foldl (fun q i => q ^^ v.getLsbD i) false

/-- `v ‖ PAR31(v)` (R103). -/
def withParity (v : BitVec 31) : Word := v ++ BitVec.ofBool (par31 v)

/-- `ASSEMBLE(p)`: payload, CRC, parity (R103; field layout `30_encoding.md` R78). -/
def assemble (p : BitVec 21) : Word := withParity (payloadCrc p (crc10 p))

/-- The message flag above a 20-bit data field, `0x100000 | field` (`30_encoding.md` R81). -/
def messagePayload (field : BitVec 20) : BitVec 21 := 1#1 ++ field

/-- The codeword of a 20-bit data field with the message flag, `ASSEMBLE(0x100000 | field)` (`41_text_packer.md` R122). -/
def messageCodeword (field : BitVec 20) : Word := assemble (messagePayload field)

/-- `CW payload` (R104): it completes in the launch step. -/
def execCw (payload : BitVec 21) (s : State) : Host.Outcome State Fault Refusal :=
  whenIdle (fun s =>
    let l := launch 1#3 payload s
    complete { l with r0 := assemble l.a, r1 := (crc10 l.a).setWidth 32 }) s

end Sys2Proof.Machine
end

