-- ==== Sys2Proof/Machine/AddressPlacement.lean ====
section
/-! DEFINITION. Address placement (`42_address_placement.md`): `PAD_COUNT`, `ADDR_PAYLOAD`, `PLACE_ADDRESS` and the command
`ADDR`. Address bit 2 is read by nothing (R144). -/

namespace Sys2Proof.Machine

/-- `PAD_COUNT(address) = address[1:0] ‖ 0` (R140). -/
def padCount (address : BitVec 21) : BitVec 3 := frameBits address ++ 0#1

/-- `ADDR_PAYLOAD(address) = 0 ‖ address[20:3] ‖ flag`, for any value of `TEXT_DATA_FLAG` (R141). -/
def addrPayload (flag : BitVec 2) (address : BitVec 21) : BitVec 21 := 0#1 ++ addressHigh address ++ flag

/-- The address codeword, for any value of `TEXT_DATA_FLAG` (R142, `30_encoding.md` R80). -/
def addrCodeword (flag : BitVec 2) (address : BitVec 21) : Word := assemble (addrPayload flag address)

/-- `PLACE_ADDRESS(address)` (R142). -/
def placeAddress (flag : BitVec 2) (address : BitVec 21) : BitVec 3 × Word := (padCount address, addrCodeword flag address)

/-- `ADDR address` (R143): it completes in the launch step. -/
def execAddr (address : BitVec 21) (s : State) : Host.Outcome State Fault Refusal :=
  whenIdle (fun s =>
    let l := launch 3#3 address s
    complete { l with r0 := addrCodeword Config.textDataFlag l.a, r1 := (padCount l.a).setWidth 32 }) s

end Sys2Proof.Machine
end

