-- ==== Sys2Proof/Machine/TextPacker.lean ====
section
/-! DEFINITION. The text packer (`41_text_packer.md`): the function `PACK_TEXT`, the phases `PH_MSG` and `PH_MSYNC` that
both `PACK` and `ENC` run, and the command `PACK`. -/

namespace Sys2Proof.Machine

/-- `ACC <- (ACC << 1) | b` (R121). -/
def appendBit (acc : BitVec 20) (b : Bool) : BitVec 20 := (acc <<< 1) ||| (BitVec.ofBool b).setWidth 20

/-- The low zero padding of the final flush: `ACC << (20 - n)` (R124). -/
def flushField (acc : BitVec 20) (n : Nat) : BitVec 20 := acc <<< (20 - n)

/-- The variables of `PACK_TEXT` (R125): the words appended so far, the accumulator, its bit count, the word position. -/
structure Packing where
  out : List Word
  acc : BitVec 20
  n : Nat
  wpos : Nat
  deriving DecidableEq, Repr

/-- Append a message codeword, and a Sync when it fills the batch; the accumulator is empty again (R122, R123). -/
def Packing.codeword (p : Packing) (field : BitVec 20) : Packing :=
  if p.wpos + 1 = Config.batchWords then
    { out := p.out ++ [messageCodeword field, Config.sync], acc := 0#20, n := 0, wpos := 0 }
  else { out := p.out ++ [messageCodeword field], acc := 0#20, n := 0, wpos := p.wpos + 1 }

/-- Pack one bit (R125, the inner loop's body). -/
def Packing.bit (p : Packing) (b : Bool) : Packing :=
  if p.n + 1 = 20 then p.codeword (appendBit p.acc b)
  else { p with acc := appendBit p.acc b, n := p.n + 1 }

/-- Pack the 7 bits of one character (R120, R121). -/
def Packing.char (p : Packing) (c : Byte) : Packing := (charBits c).foldl Packing.bit p

/-- The final flush of 1 to 19 held bits (R124). -/
def Packing.flush (p : Packing) : Packing := if p.n = 0 then p else p.codeword (flushField p.acc p.n)

/-- `PACK_TEXT` as a whole: what stands in its variables at the end (R125). -/
def packing (wpos0 : Nat) (msg : List Byte) : Packing :=
  (msg.foldl Packing.char { out := [], acc := 0#20, n := 0, wpos := wpos0 }).flush

/-- `PACK_TEXT(wpos0, msg)` (R125). -/
def packText (wpos0 : Nat) (msg : List Byte) : List Word := (packing wpos0 msg).out

/-- The number of message codewords of `n` characters, `ceil(7n / 20)` (R125, `44_length_calculator.md` R180). -/
def messageWords (n : Nat) : Nat := (7 * n + 19) / 20

/-- `WPOS_AFTER(wpos0, L) = (wpos0 + ceil(7L / 20)) mod 16` (R125). -/
def wposAfter (wpos0 n : Nat) : Nat := (wpos0 + messageWords n) % Config.batchWords

/-- A full field under way: `Emit` the codeword, count it, empty the accumulator, advance the word position (R128, R129). -/
def emitField (field : BitVec 20) (s : State) : State :=
  { emitCounted (messageCodeword field) s with acc := 0#20, nbits := 0#5, wpos := nextWordPosition s.wpos }

/-- One bit of the byte step: append it, and emit at 20 bits (R128, the loop's body). -/
def packBit (s : State) (b : Bool) : State :=
  if s.nbits.toNat + 1 = 20 then emitField (appendBit s.acc b) s
  else { s with acc := appendBit s.acc b, nbits := s.nbits + 1#5 }

/-- `if WPOS = 16 then PH <- PH_MSYNC`, else `PH` stays (R128, R129). -/
def enterSyncAtBoundary (s : State) : State :=
  { s with ph := if s.wpos.toNat = Config.batchWords then .msync else s.ph }

/-- Phase `PH_MSG`, byte step (R128). -/
def byteStep (s : State) : State :=
  let t := (charBits (memRead s s.cidx)).foldl packBit s
  enterSyncAtBoundary { t with cidx := s.cidx + 1 }

/-- Phase `PH_MSG`, flush step (R129). -/
def flushStep (s : State) : State := enterSyncAtBoundary (emitField (flushField s.acc s.nbits.toNat) s)

/-- Phase `PH_MSG`, leaving step (R130): `ENC` goes on to the trailing Idle, `PACK` completes. -/
def leaveStep (s : State) : State :=
  if s.op = 4#3 then { s with ph := .tail }
  else if s.op = 2#3 then complete s
  else s

/-- Phase `PH_MSG`: byte, flush or leaving step, "chosen by `CIDX < MLEN`, then by `NBITS > 0`" (section 3). -/
def msgStep (s : State) : State :=
  if s.cidx.toNat < s.mlen.toNat then byteStep s
  else if 0 < s.nbits.toNat then flushStep s
  else leaveStep s

/-- Phase `PH_MSYNC` (R131). -/
def msyncStep (s : State) : State := { emitCounted Config.sync s with wpos := 0#5, ph := .msg }

/-- `PACK wpos, "text"`, its launch (R126). -/
def execPack (a : BitVec 21) (s : State) : Host.Outcome State Fault Refusal :=
  whenIdle (fun s =>
    let l := launch 2#3 a s
    start .msg { l with acc := 0#20, nbits := 0#5, cidx := 0, gcnt := 0#5, wpos := startWordPosition l.a }) s

end Sys2Proof.Machine
end

