-- ==== Sys2Proof/Machine/Length.lean ====
section
/-! DEFINITION. The length calculator (`44_length_calculator.md`): `PREDICTED_WORD_COUNT` and the command `LEN`. -/

namespace Sys2Proof.Machine

/-- The least multiple of 16 that is at least `w`: "padding to next multiple of 16" (R180, `90_conflicts.md` C6). -/
def roundUpToBatch (w : Nat) : Nat := Config.batchWords * ((w + 15) / Config.batchWords)

/-- `PREDICTED_WORD_COUNT(address, n)` (R180), on natural numbers. -/
def predictedWordCount (address : BitVec 21) (n : Nat) : Nat :=
  let w1 := (padCount address).toNat + 1 + messageWords n + 1
  let w2 := roundUpToBatch w1
  w2 + w2 / Config.batchWords + Config.preambleWords

/-- `LEN address, n` with `n = MLEN` (R181): it completes in the launch step. -/
def execLen (address : BitVec 21) (s : State) : Host.Outcome State Fault Refusal :=
  whenIdle (fun s =>
    let l := launch 5#3 address s
    complete { l with
      r0 := BitVec.ofNat 32 (predictedWordCount l.a l.mlen.toNat)
      r1 := BitVec.ofNat 32 (4 * predictedWordCount l.a l.mlen.toNat) }) s

end Sys2Proof.Machine
end

