-- ==== Sys2Proof/Machine/Transmission.lean ====
section
/-! DEFINITION. The transmission assembler (`43_transmission_assembler.md`): the function `ENCODE_TRANSMISSION`, the phases
of the sequencer other than the packer's, and the command `ENC`. -/

namespace Sys2Proof.Machine

/-- The sync region before step 7: Sync, padding, address codeword, packed text, trailing Idle (R150, steps 2 to 6). -/
def regionUnpadded (flag : BitVec 2) (address : BitVec 21) (msg : List Byte) : List Word :=
  let pad := (padCount address).toNat
  [Config.sync] ++ List.replicate pad Config.idle ++ [addrCodeword flag address] ++ packText (pad + 1) msg ++ [Config.idle]

/-- How many words bring a count to a multiple of 17 (R150, step 7). -/
def groupPadding (n : Nat) : Nat := (Config.groupWords - n % Config.groupWords) % Config.groupWords

/-- The sync region, padded with Idle to whole groups (R150, steps 2 to 7). -/
def syncRegion (flag : BitVec 2) (address : BitVec 21) (msg : List Byte) : List Word :=
  let region := regionUnpadded flag address msg
  region ++ List.replicate (groupPadding region.length) Config.idle

/-- All words of a transmission (R150, steps 1 to 7). -/
def transmissionWords (flag : BitVec 2) (address : BitVec 21) (msg : List Byte) : List Word :=
  List.replicate Config.preambleWords Config.preambleWord ++ syncRegion flag address msg

/-- `ENCODE_TRANSMISSION(address, msg)`: the bytes of a transmission (R150), for any value of `TEXT_DATA_FLAG`. -/
def encodeTransmission (flag : BitVec 2) (address : BitVec 21) (msg : List Byte) : List Byte :=
  (transmissionWords flag address msg).flatMap ser32

/-- Phase `PH_PRE` (R153): one preamble word; `GCNT` and `WPOS` are not changed. -/
def preStep (s : State) : State :=
  { emit Config.preambleWord s with
    pcnt := s.pcnt + 1#5, ph := if s.pcnt.toNat + 1 = Config.preambleWords then .sync0 else s.ph }

/-- Phase `PH_SYNC0` (R154): the first Sync, word 1 of the sync region. -/
def sync0Step (s : State) : State :=
  { emit Config.sync s with gcnt := 1#5, ph := if s.padn = 0#3 then .addrW else .padPre }

/-- Phase `PH_PADPRE` (R155): one Idle before the address codeword. -/
def padPreStep (s : State) : State :=
  { emitCounted Config.idle s with
    wpos := nextWordPosition s.wpos, padn := s.padn - 1#3, ph := if s.padn - 1#3 = 0#3 then .addrW else s.ph }

/-- Phase `PH_ADDRW` (R156): the address codeword. -/
def addrWStep (s : State) : State :=
  { emitCounted (addrCodeword Config.textDataFlag s.a) s with wpos := nextWordPosition s.wpos, ph := .msg }

/-- Phase `PH_TAIL` (R158): the trailing Idle. -/
def tailStep (s : State) : State := { emitCounted Config.idle s with wpos := nextWordPosition s.wpos, ph := .padPost }

/-- Phase `PH_PADPOST` (R159): one Idle of batch padding, or the end of the run. -/
def padPostStep (s : State) : State :=
  if s.gcnt = 0#5 then complete s
  else { emitCounted Config.idle s with wpos := nextWordPosition s.wpos }

/-- `ENC address, "text"`, its launch (R152). -/
def execEnc (address : BitVec 21) (s : State) : Host.Outcome State Fault Refusal :=
  whenIdle (fun s =>
    let l := launch 4#3 address s
    start .pre { l with acc := 0#20, nbits := 0#5, cidx := 0, gcnt := 0#5, pcnt := 0#5, wpos := 0#5, padn := padCount l.a }) s

end Sys2Proof.Machine
end

