-- ==== Sys2Proof/Machine/Dispatch.lean ====
section
/-! DEFINITION. Each command's meaning, one arm per row of `opcode_table.json` (`30_encoding.md` R73). -/

namespace Sys2Proof.Machine

def exec (i : Instr) (s : State) : Host.Outcome State Fault Refusal :=
  match i with
  | .cw payload => Sys2Proof.Machine.execCw payload s
  | .pack a => Sys2Proof.Machine.execPack a s
  | .addr address => Sys2Proof.Machine.execAddr address s
  | .enc address => Sys2Proof.Machine.execEnc address s
  | .len address => Sys2Proof.Machine.execLen address s

end Sys2Proof.Machine
end

