-- ==== Sys2Proof/Machine/Sequencer.lean ====
section
/-! DEFINITION. One step of the sequencer: the step rule of the phase in `PH` (`10_state.md` R21,
`43_transmission_assembler.md` R160). -/

namespace Sys2Proof.Machine

/-- The step that `PH` selects. In `PH_IDLE` nothing happens until a command is written (R160, the edge "no command"; log 13). -/
def sequencerStep (s : State) : State :=
  match s.ph with
  | .idle => s
  | .pre => preStep s
  | .sync0 => sync0Step s
  | .padPre => padPreStep s
  | .addrW => addrWStep s
  | .msg => msgStep s
  | .msync => msyncStep s
  | .tail => tailStep s
  | .padPost => padPostStep s

/-- The number of steps an `ENC` run takes after its launch step (`43_transmission_assembler.md` R163). -/
def encStepCount (address : BitVec 21) (n : Nat) : Nat :=
  let pad := (padCount address).toNat
  let f := if 7 * n % 20 = 0 then 0 else 1
  let syncs := (pad + 1 + messageWords n) / 16
  let p := groupPadding (1 + pad + 1 + messageWords n + syncs + 1)
  18 + 1 + pad + 1 + n + f + 1 + syncs + 1 + p + 1

/-- The number of steps a `PACK` run takes after its launch step: one per byte, the flush, the Syncs, the leaving step
(DEDUCED from R128 to R131 as R163 counts them for `ENC`). -/
def packStepCount (wpos0 n : Nat) : Nat :=
  n + (if 7 * n % 20 = 0 then 0 else 1) + (wpos0 + messageWords n) / 16 + 1

end Sys2Proof.Machine
end

