-- ==== Sys2Proof/Machine/HostPort.lean ====
section
/-! DEFINITION. The host interface (`10_state.md` R38, `70_reset_and_hazards.md` R210 to R217): what a read answers, what a
write does, and one move of the host against one step of the sequencer. -/

namespace Sys2Proof.Machine

/-- The index of a host register (R38). -/
def HostReg.index : HostReg → Nat
  | .cmd => 0
  | .mlen => 1
  | .status => 2
  | .r0 => 3
  | .r1 => 4
  | .ocnt => 5

/-- What the host reads in a register; bits not listed read 0 (R38). -/
def hostRead (s : State) : HostReg → Word
  | .cmd => cmdWord s
  | .mlen => s.mlen.setWidth 32
  | .status => statusWord s
  | .r0 => s.r0
  | .r1 => s.r1
  | .ocnt => s.ocnt

/-- A write to `CMD`: the command it selects runs; a reserved command word changes nothing (`30_encoding.md` R73, R74; log 3). -/
def writeCmd (v : Word) (s : State) : Host.Outcome State Fault Refusal :=
  match decode v with
  | .ok i => exec i s
  | .error _ => .next s

/-- A write to `MLEN`: its low `LEN_W` bits while `BUSY = 0`, ignored while `BUSY = 1` (R23, R38, R214; log 10). -/
def writeMlen (v : Word) (s : State) : State := if s.busy then s else { s with mlen := v.setWidth Config.lenW }

/-- A write to a host register; the read-only registers ignore it (R38; log 10). -/
def hostWrite (r : HostReg) (v : Word) (s : State) : Host.Outcome State Fault Refusal :=
  match r with
  | .cmd => writeCmd v s
  | .mlen => .next (writeMlen v s)
  | .status => .next s
  | .r0 => .next s
  | .r1 => .next s
  | .ocnt => .next s

/-- Whether placing `b` at index `i` would change the message of the command that runs (R213). -/
def breaksStableMessage (i : BitVec Config.lenW) (b : Byte) (s : State) : Bool :=
  s.busy && decide (i.toNat < s.mlen.toNat) && decide (s.msg.read? i.toNat ≠ some b)

/-- Place a byte of the message memory. Changing `MSG[0..MLEN-1]` while a command runs is a move the host does not have
(R213, U5; log 8). -/
def placeMsg (i : BitVec Config.lenW) (b : Byte) (s : State) : Host.Outcome State Fault Refusal :=
  if breaksStableMessage i b s then .refused .messageChangedWhileBusy
  else .next { s with msg := s.msg.write i.toNat b }

/-- One move of the host, taken off its list (log 1). Between two moves the core is at rest; `quiet` and `awaitIdle` let it step. -/
def hostMove (m : HostMove) (s : State) : Host.Outcome State Fault Refusal :=
  match m with
  | .write r v => hostWrite r v s
  | .read _ => .next s
  | .placeMsg i b => placeMsg i b s
  | .reset => .next (resetCore s)
  | .quiet => .next (sequencerStep s)
  | .awaitIdle => .next (if s.busy then sequencerStep { s with host := .awaitIdle :: s.host } else s)

/-- One step: the host's next move, or, when it has none, the sequencer's step. -/
def advance (s : State) : Host.Outcome State Fault Refusal :=
  match s.host with
  | [] => .next (sequencerStep s)
  | m :: rest => hostMove m { s with host := rest }

/-- The state in which the host's next move writes the word `c` to `CMD` and the core is ready to accept it. -/
def withCommand (c : Word) (s : State) : State := { s with ph := .idle, host := .write .cmd c :: s.host }

end Sys2Proof.Machine
end

