-- ==== Sys2Proof/Machine/Step.lean ====
section
/-! DEFINITION. The step of the machine, and how the host of this pipeline places a command word. -/

namespace Sys2Proof.Machine

/-- One step of the core and its host (`00_scope.md` R10, `70_reset_and_hazards.md` R217). -/
def step (s : State) : Host.Outcome State Fault Refusal := Sys2Proof.Machine.advance s

/-- The core fetches nothing (`20_memory.md` R62): a command runs because the host writes its word to `CMD` while
`BUSY = 0`. So this puts that write first among the host's moves, and `PH` at `PH_IDLE` (log 14). -/
def State.withFetchWord (s : State) (nbits w : Nat) : State := Sys2Proof.Machine.withCommand (Sys2Proof.tableWord nbits w) s

end Sys2Proof.Machine
end

