-- ==== Sys2Proof/Safety.lean ====
section
/-! DEFINITION. What a safe run of the core is, in the terms the statements use: the bounds of `10_state.md` R39, the
invariant every step keeps, a run of several steps, its end (`70_reset_and_hazards.md` R217), and what the host can see. -/

namespace Sys2Proof.Machine

/-- The bounds of R39 between two steps. `PH` is one of 0 to 8 by its type. `CIDX <= MLEN` is read as holding while a
command runs: between commands the host may write a smaller `MLEN` (R23; log 12). -/
structure Bounds (s : State) : Prop where
  nbits_le : s.nbits.toNat ≤ 19
  acc_lt : s.acc.toNat < 2 ^ s.nbits.toNat
  wpos_le : s.wpos.toNat ≤ 16
  wpos_full : s.wpos.toNat = 16 → s.ph = .msync ∨ (s.ph = .padPost ∧ s.gcnt = 0#5) ∨ s.ph = .idle
  padn_le : s.padn.toNat ≤ 6
  pcnt_le : s.pcnt.toNat ≤ 18
  cidx_le : s.ph ≠ .idle → s.cidx.toNat ≤ s.mlen.toNat
  gcnt_le : s.gcnt.toNat ≤ 16
  ocnt_words : s.ocnt.toNat % 4 = 0

/-- What ties the working registers to the phase while a command runs: `DONE = 0` (R32); only `PACK` and `ENC` run the
sequencer, and only `ENC` leaves the packer's phases (R130, R160); the packer starts empty (R156); until the address
codeword the word position and the padding still owed add up to `PAD_COUNT(A)` (R152 to R156); `PH_MSYNC` is "entered only
with `WPOS = 16`" (R131); under `ENC`, `GCNT = (WPOS + 1) mod 17` from the sync region on (R30). -/
def PhaseFacts (s : State) : Prop :=
  match s.ph with
  | .idle => True
  | .pre =>
    s.done = false ∧ s.op = 4#3 ∧ s.acc = 0#20 ∧ s.nbits = 0#5 ∧ s.cidx = 0#Config.lenW ∧ s.wpos = 0#5 ∧ s.gcnt = 0#5 ∧
      s.padn = padCount s.a ∧ s.pcnt.toNat ≤ 17
  | .sync0 =>
    s.done = false ∧ s.op = 4#3 ∧ s.acc = 0#20 ∧ s.nbits = 0#5 ∧ s.cidx = 0#Config.lenW ∧ s.wpos = 0#5 ∧ s.gcnt = 0#5 ∧
      s.padn = padCount s.a
  | .padPre =>
    s.done = false ∧ s.op = 4#3 ∧ s.acc = 0#20 ∧ s.nbits = 0#5 ∧ s.cidx = 0#Config.lenW ∧
      s.wpos.toNat + s.padn.toNat = (padCount s.a).toNat ∧ s.padn ≠ 0#3 ∧ s.gcnt.toNat = s.wpos.toNat + 1
  | .addrW =>
    s.done = false ∧ s.op = 4#3 ∧ s.acc = 0#20 ∧ s.nbits = 0#5 ∧ s.cidx = 0#Config.lenW ∧
      s.wpos.toNat = (padCount s.a).toNat ∧ s.padn = 0#3 ∧ s.gcnt.toNat = s.wpos.toNat + 1
  | .msg =>
    s.done = false ∧ (s.op = 4#3 ∨ s.op = 2#3) ∧ s.wpos.toNat ≤ 15 ∧
      (s.op = 4#3 → s.gcnt.toNat = s.wpos.toNat + 1)
  | .msync =>
    s.done = false ∧ (s.op = 4#3 ∨ s.op = 2#3) ∧ s.wpos.toNat = 16 ∧ (s.op = 4#3 → s.gcnt.toNat = 0)
  | .tail =>
    s.done = false ∧ s.op = 4#3 ∧ s.nbits = 0#5 ∧ s.cidx = s.mlen ∧ s.wpos.toNat ≤ 15 ∧ s.gcnt.toNat = s.wpos.toNat + 1
  | .padPost =>
    s.done = false ∧ s.op = 4#3 ∧ s.nbits = 0#5 ∧ s.cidx = s.mlen ∧ s.gcnt.toNat = (s.wpos.toNat + 1) % 17

/-- The two byte spaces between two steps: in canonical form, every index within its space (`20_memory.md` R50), and every
byte of `OUT` below `OCNT` written (`10_state.md` R33). -/
structure SpacesFit (s : State) : Prop where
  out_canonical : s.out.wf
  msg_canonical : s.msg.wf
  out_indices : ∀ c ∈ s.out, c.1 < 2 ^ 32
  msg_indices : ∀ c ∈ s.msg, c.1 < 2 ^ Config.lenW
  out_written : ∀ j, j < s.ocnt.toNat → (s.out.read? j).isSome

/-- The invariant of the machine: R39's bounds, what the phase says of the working registers, and the byte spaces. -/
structure Inv (s : State) : Prop where
  bounds : Bounds s
  phase : PhaseFacts s
  spaces : SpacesFit s

/-- `k` steps, stopping at the first that answers no next state. -/
def runSteps : Nat → State → Host.Outcome State Fault Refusal
  | 0, s => .next s
  | k + 1, s =>
    match step s with
    | .next t => runSteps k t
    | .fault r => .fault r
    | .refused r => .refused r

/-- The end of a run: `PH = PH_IDLE` and `DONE = 1` (R217). -/
def Completed (s : State) : Prop := s.ph = .idle ∧ s.done = true

/-- The host's only move is to write the command word `c` to `CMD`. -/
def commanded (c : Word) (s : State) : State := { s with host := [.write .cmd c] }

/-- The bits held in `ACC`, first packed first: `ACC[NBITS-1:0]` from the top down (`10_state.md` R25). -/
def heldBits (s : State) : List Bool :=
  (List.range s.nbits.toNat).map (fun k => s.acc.getLsbD (s.nbits.toNat - 1 - k))

/-- The accumulator after appending bits to an empty one (`41_text_packer.md` R121). -/
def fieldOf (bs : List Bool) : BitVec 20 := bs.foldl appendBit 0#20

/-- The data field of a codeword, bits 30 down to 11, leftmost first (`30_encoding.md` R78, R81). -/
def dataBits (w : Word) : List Bool := (List.range 20).map (fun k => w.getLsbD (30 - k))

/-- Two message bytes with the same low 7 bits, whatever bit 7 is (`41_text_packer.md` R120). -/
def SameChar (c d : Byte) : Prop := c.extractLsb' 0 7 = d.extractLsb' 0 7

/-- What the host can read of a run: `STATUS`, `OCNT` and the output below it (R215, `93_implementation_defined.md` U11). -/
def SameOutput (s t : State) : Prop :=
  statusWord s = statusWord t ∧ s.ocnt = t.ocnt ∧ s.outBytes = t.outBytes

/-- The two states hold the same `MLEN` and the same message: all that a command reads of the past (R35, R211). -/
def SameMessage (s t : State) : Prop := s.mlen = t.mlen ∧ s.message = t.message

end Sys2Proof.Machine
end

