-- ==== Sys2Proof/Certificates/Slice0/Obligations.lean ====
section
/-! DEFINITION. The statements for the provers. Each docstring names the rule of `spec/` it formalises. -/

open Sys2Proof Sys2Proof.Machine

/-! ## Command words -/

/-- R71 to R74: the decoder gives back every command that has a command word, with every operand the encoding admits. -/
def Obligations.DecodeOfEncodeIsTheCommand : Prop :=
  ∀ i : Instr, i.wellFormed = true → decode (encode i) = .ok i

/-- R71 to R74: a word the decoder accepts is the command word of what it answers, and of nothing else. -/
def Obligations.EncodeOfDecodeIsTheWord : Prop :=
  ∀ (c : Word) (i : Instr), decode c = .ok i → i.wellFormed = true ∧ encode i = c

/-- R73: while `BUSY = 0` a write to `CMD` runs the command of the one row that matches; its launch first takes over
`OP`, `A` and clears `OCNT`; a word that matches no row is reserved. -/
def Obligations.MatchingRowLaunchesItsCommand : Prop :=
  ∀ (c : Word) (s : State) (rest : List HostMove), s.ph = .idle → s.host = .write .cmd c :: rest →
    opcodeRows.countP (rowMatches c) ≤ 1 ∧
    (opcodeRows.countP (rowMatches c) = 0 ↔ ∃ e, decode c = .error e) ∧
    (c &&& 0xFFE00000#32 = 0x20000000#32 → step s = exec (.cw (c.extractLsb' 0 21)) { s with host := rest }) ∧
    (c &&& 0xFFFFFFF0#32 = 0x40000000#32 → step s = exec (.pack (c.extractLsb' 0 21)) { s with host := rest }) ∧
    (c &&& 0xFFE00000#32 = 0x60000000#32 → step s = exec (.addr (c.extractLsb' 0 21)) { s with host := rest }) ∧
    (c &&& 0xFFE00000#32 = 0x80000000#32 → step s = exec (.enc (c.extractLsb' 0 21)) { s with host := rest }) ∧
    (c &&& 0xFFE00000#32 = 0xA0000000#32 → step s = exec (.len (c.extractLsb' 0 21)) { s with host := rest }) ∧
    (opcodeRows.countP (rowMatches c) = 1 →
      ∃ t, step s = .next t ∧ t.op = c.extractLsb' 29 3 ∧ t.a = c.extractLsb' 0 21 ∧ t.ocnt = 0#32)

/-- R74: which command words are reserved; and a write of one changes nothing but the host's list of moves. That a reserved
word is ignored and not refused is the model's choice between the two options of U4 (log 3). -/
def Obligations.ReservedWordsAreIgnored : Prop :=
  (∀ c : Word, (∃ e, decode c = .error e) ↔
    c.extractLsb' 29 3 = 0#3 ∨ c.extractLsb' 29 3 = 6#3 ∨ c.extractLsb' 29 3 = 7#3 ∨ c.extractLsb' 21 8 ≠ 0#8 ∨
      (c.extractLsb' 29 3 = 2#3 ∧ c.extractLsb' 4 17 ≠ 0#17)) ∧
  ∀ (c : Word) (s : State) (rest : List HostMove), (∃ e, decode c = .error e) → s.host = .write .cmd c :: rest →
    step s = .next { s with host := rest }

/-- The command words of the spec's examples (R104, R126, R143, R152, R181; P1 for the reserved word 0). -/
def Obligations.WrittenOutWordsDecode : Prop :=
  decode 0b00100000000000000000000000000011#32 = .ok (.cw 3#21) ∧
  decode 0b01000000000000000000000000001111#32 = .ok (.pack 15#21) ∧
  decode 0b01100000000100101101011010000111#32 = .ok (.addr 1234567#21) ∧
  decode 0b10000000000000000000000000000001#32 = .ok (.enc 1#21) ∧
  decode 0b10100000000000000000000000000001#32 = .ok (.len 1#21) ∧
  decode 0#32 = .error (.reservedOpcode 0#3)

/-! ## The codeword assembler -/

/-- The laws of `CRC10` that R101 marks as derived from R100: `CRC10(p)` is the one `r` for which `p ‖ r` is a multiple of
`GEN`, so dividing `p ‖ CRC10(p)` leaves 0; it is linear; the bit-serial form gives the same function. -/
def Obligations.CrcDivisionLaws : Prop :=
  (∀ (p : BitVec 21) (r : BitVec 10), (∃ q : BitVec 21, genMultiple q = payloadCrc p r) ↔ r = crc10 p) ∧
  (∀ p : BitVec 21, crcDivide (payloadCrc p (crc10 p)) = 0#31) ∧
  (∀ p q : BitVec 21, crc10 (p ^^^ q) = crc10 p ^^^ crc10 q) ∧
  (∀ p : BitVec 21, crc10Serial p = crc10 p)

/-- R102: the XOR of the 31 bits is 1 exactly when an odd number of them is set. -/
def Obligations.ParityIsPopcountModTwo : Prop :=
  ∀ v : BitVec 31, par31 v = true ↔ popcount v % 2 = 1

/-- R78, R79, R103: bit 31 of a codeword is the payload's flag, bits 30:11 its 20 data bits, so bits 31:11 the payload;
bits 10:1 the CRC; bit 0 the parity of the other 31. -/
def Obligations.CodewordFieldLayout : Prop :=
  ∀ p : BitVec 21,
    (assemble p).getLsbD 31 = p.getLsbD 20 ∧ (assemble p).extractLsb' 11 20 = p.extractLsb' 0 20 ∧
    (assemble p).extractLsb' 11 21 = p ∧ (assemble p).extractLsb' 1 10 = crc10 p ∧
    (assemble p).getLsbD 0 = par31 (payloadCrc p (crc10 p))

/-- The laws of `ASSEMBLE` that R105 marks as derived: even parity, recoverable payload, linearity, what a valid codeword
is; `SYNC` and `IDLE` are valid, the preamble word is not. -/
def Obligations.AssemblerLaws : Prop :=
  (∀ p : BitVec 21, popcount (assemble p) % 2 = 0) ∧
  (∀ p : BitVec 21, (assemble p).extractLsb' 11 21 = p) ∧
  (∀ p q : BitVec 21, assemble p = assemble q → p = q) ∧
  (∀ p q : BitVec 21, assemble (p ^^^ q) = assemble p ^^^ assemble q) ∧
  (∀ w : Word, (∃ p, assemble p = w) ↔ assemble (w.extractLsb' 11 21) = w) ∧
  (∃ p, assemble p = Config.sync) ∧ (∃ p, assemble p = Config.idle) ∧ ¬ ∃ p, assemble p = Config.preambleWord

/-! ## The commands that complete in the launch step -/

/-- R104: `CW` leaves the codeword in `R0`, the CRC in `R1`, sets `DONE`, and writes nothing else but the common part. -/
def Obligations.CwLeavesCodewordAndCrc : Prop :=
  ∀ (p : BitVec 21) (s : State), s.ph = .idle →
    exec (.cw p) s = .next { s with
      op := 1#3, a := p, ocnt := 0#32, r0 := assemble p, r1 := (crc10 p).setWidth 32, done := true } ∧
    (assemble p).extractLsb' 1 10 = crc10 p

/-- R143: `ADDR` leaves the address codeword in `R0` and `PAD_COUNT` in `R1`, sets `DONE`, and writes nothing else but the
common part. -/
def Obligations.AddrLeavesCodewordAndPadding : Prop :=
  ∀ (a : BitVec 21) (s : State), s.ph = .idle →
    exec (.addr a) s = .next { s with
      op := 3#3, a := a, ocnt := 0#32, r0 := assemble (addrPayload Config.textDataFlag a),
      r1 := (padCount a).setWidth 32, done := true }

/-- R181: `LEN` leaves the word count in `R0` and the byte count in `R1`, both whole (nothing is cut off at 32 bits), sets
`DONE`, and writes nothing else but the common part. -/
def Obligations.LenLeavesThePrediction : Prop :=
  ∀ (a : BitVec 21) (s : State), s.ph = .idle →
    ∃ r0 r1 : Word,
      exec (.len a) s = .next { s with op := 5#3, a := a, ocnt := 0#32, r0 := r0, r1 := r1, done := true } ∧
      r0.toNat = predictedWordCount a s.mlen.toNat ∧ r1.toNat = 4 * predictedWordCount a s.mlen.toNat

/-! ## Address placement and length -/

/-- R140 to R142, for every value of `TEXT_DATA_FLAG`: the source's formulas `(address & 3) * 2` and
`((address >> 3) << 2) | flag`, the flag bit 0, and the codeword assembled from the payload. -/
def Obligations.PlaceAddressArithmetic : Prop :=
  ∀ (f : BitVec 2) (a : BitVec 21),
    (padCount a).toNat = a.toNat % 4 * 2 ∧
    addrPayload f a = ((a >>> 3) <<< 2) ||| f.setWidth 21 ∧
    (addrPayload f a).toNat = a.toNat / 8 * 4 + f.toNat ∧
    (addrPayload f a).getLsbD 20 = false ∧
    placeAddress f a = (padCount a, assemble (addrPayload f a))

/-- Address bit 2 is used nowhere, so `ADDR` and `ENC` do not see it, and only word positions 0, 2, 4, 6 are used
(`42_address_placement.md` R144, marked derived). -/
def Obligations.AddressBitTwoIsUnused : Prop :=
  ∀ (f : BitVec 2) (a : BitVec 21),
    padCount (a ^^^ 4#21) = padCount a ∧ addrPayload f (a ^^^ 4#21) = addrPayload f a ∧
    placeAddress f (a ^^^ 4#21) = placeAddress f a ∧
    (∀ msg, encodeTransmission f (a ^^^ 4#21) msg = encodeTransmission f a msg) ∧
    ((padCount a).toNat = 0 ∨ (padCount a).toNat = 2 ∨ (padCount a).toNat = 4 ∨ (padCount a).toNat = 6)

/-- R180: `m` is the ceiling of `7n / 20`, `w2` the least multiple of 16 that is at least `w1`, one Sync word for each 16,
and the preamble; the result is at least 35. -/
def Obligations.PredictionArithmetic : Prop :=
  ∀ (a : BitVec 21) (n : Nat), ∃ m w1 w2 : Nat,
    7 * n ≤ 20 * m ∧ 20 * m < 7 * n + 20 ∧
    w1 = (padCount a).toNat + 1 + m + 1 ∧
    w1 ≤ w2 ∧ w2 < w1 + 16 ∧ w2 % 16 = 0 ∧
    predictedWordCount a n = w2 + w2 / 16 + 18 ∧ 35 ≤ predictedWordCount a n

/-! ## PACK and ENC -/

/-- R126, R152: what the launch of `PACK` and of `ENC` leaves, every other register and all of memory unchanged. -/
def Obligations.SequencerCommandsLaunch : Prop :=
  (∀ (a : BitVec 21) (s : State), s.ph = .idle →
    exec (.pack a) s = .next { s with
      op := 2#3, a := a, ocnt := 0#32, acc := 0#20, nbits := 0#5, cidx := 0#Config.lenW, gcnt := 0#5,
      wpos := (a.extractLsb' 0 4).setWidth 5, done := false, ph := .msg }) ∧
  (∀ (a : BitVec 21) (s : State), s.ph = .idle →
    exec (.enc a) s = .next { s with
      op := 4#3, a := a, ocnt := 0#32, acc := 0#20, nbits := 0#5, cidx := 0#Config.lenW, gcnt := 0#5, pcnt := 0#5,
      wpos := 0#5, padn := padCount a, done := false, ph := .pre })

/-- A `PACK` run launches as R126 says and ends, as that rule derives from R128 to R131, with the serialised words of
`PACK_TEXT` in `OUT`, the word position after them, an empty packer, `CIDX = MLEN` and `DONE = 1`; `R0`, `R1`, `PCNT`,
`PADN` are unchanged. -/
def Obligations.PackRunEmitsThePackedText : Prop :=
  ∀ (a : BitVec 21) (s : State), (Instr.pack a).wellFormed = true → s.ph = .idle →
    exec (.pack a) s = .next { s with
      op := 2#3, a := a, ocnt := 0#32, acc := 0#20, nbits := 0#5, cidx := 0#Config.lenW, gcnt := 0#5,
      wpos := (a.extractLsb' 0 4).setWidth 5, done := false, ph := .msg } ∧
    ∃ t, runSteps (1 + packStepCount a.toNat s.mlen.toNat) (commanded (encode (.pack a)) s) = .next t ∧ Completed t ∧
      t.outBytes = ((packText a.toNat s.message).flatMap ser32).map some ∧
      t.wpos.toNat = wposAfter a.toNat s.mlen.toNat ∧ t.acc = 0#20 ∧ t.nbits = 0#5 ∧ t.cidx = s.mlen ∧
      t.r0 = s.r0 ∧ t.r1 = s.r1 ∧ t.pcnt = s.pcnt ∧ t.padn = s.padn

/-- The `ENC` half of the refinement R161, marked derived: an `ENC` run launches as R152 says and ends with
`ENCODE_TRANSMISSION(A, MSG[0..MLEN-1])` in `OUT` and `DONE = 1`; `R0` and `R1` are unchanged. -/
def Obligations.EncRunEmitsTheTransmission : Prop :=
  ∀ (a : BitVec 21) (s : State), s.ph = .idle →
    exec (.enc a) s = .next { s with
      op := 4#3, a := a, ocnt := 0#32, acc := 0#20, nbits := 0#5, cidx := 0#Config.lenW, gcnt := 0#5, pcnt := 0#5,
      wpos := 0#5, padn := padCount a, done := false, ph := .pre } ∧
    ∃ t, runSteps (1 + encStepCount a s.mlen.toNat) (commanded (encode (.enc a)) s) = .next t ∧ Completed t ∧
      t.outBytes = (encodeTransmission Config.textDataFlag a s.message).map some ∧ t.r0 = s.r0 ∧ t.r1 = s.r1

/-- The step count R163, marked derived: an `ENC` run takes exactly the counted steps after its launch; it is busy after the
launch and after every step but the last; for `ENC 1, "ABC"` that is 39. -/
def Obligations.EncRunTakesTheCountedSteps : Prop :=
  (∀ (a : BitVec 21) (s : State) (k : Nat), s.ph = .idle → k < encStepCount a s.mlen.toNat →
    ∃ t, runSteps (1 + k) (commanded (encode (.enc a)) s) = .next t ∧ t.busy = true) ∧
  (∀ (a : BitVec 21) (s : State), s.ph = .idle →
    ∃ t, runSteps (1 + encStepCount a s.mlen.toNat) (commanded (encode (.enc a)) s) = .next t ∧ Completed t) ∧
  encStepCount 1#21 3 = 39

/-- The consistency R182, marked derived: an `ENC` run ends with `OCNT = 4 * PREDICTED_WORD_COUNT(A, MLEN)`; the function's
output has that length for every message; the largest output for `LEN_W = 16` is 24413 words. -/
def Obligations.EncOutputHasThePredictedLength : Prop :=
  (∀ (a : BitVec 21) (s : State), s.ph = .idle →
    ∃ t, runSteps (1 + encStepCount a s.mlen.toNat) (commanded (encode (.enc a)) s) = .next t ∧ Completed t ∧
      t.ocnt.toNat = 4 * predictedWordCount a s.mlen.toNat) ∧
  (∀ (f : BitVec 2) (a : BitVec 21) (msg : List Byte),
    (encodeTransmission f a msg).length = 4 * predictedWordCount a msg.length) ∧
  (∀ (a : BitVec 21) (n : BitVec 16), predictedWordCount a n.toNat ≤ 24413) ∧ predictedWordCount 3#21 65535 = 24413

/-- The properties R162 points 1 to 4, marked derived, for every `TEXT_DATA_FLAG` that is not the two low payload bits of
`SYNC`: whole groups of a Sync and 16 words none of which is a Sync; the address codeword after `PAD_COUNT` Idles; `ceil(7L
/ 20)` message codewords; 1 to 16 Idles at the end. -/
def Obligations.TransmissionIsWholeBatches : Prop :=
  ∀ (f : BitVec 2) (a : BitVec 21) (msg : List Byte), f ≠ 2#2 →
    (∃ groups : List (List Word), groups ≠ [] ∧ (∀ g ∈ groups, g.length = 16 ∧ Config.sync ∉ g) ∧
      transmissionWords f a msg =
        List.replicate 18 Config.preambleWord ++ groups.flatMap (fun g => Config.sync :: g)) ∧
    (transmissionWords f a msg).length = predictedWordCount a msg.length ∧
    (∃ k, k ≤ 15 ∧ transmissionWords f a msg =
      List.replicate 18 Config.preambleWord ++ [Config.sync] ++ List.replicate (padCount a).toNat Config.idle ++
        [addrCodeword f a] ++ packText ((padCount a).toNat + 1) msg ++ List.replicate (1 + k) Config.idle) ∧
    ((transmissionWords f a msg).drop 18).countP (fun w => w.getLsbD 31) = messageWords msg.length

/-- What R88 marks as derived, with `TEXT_DATA_FLAG = 3`: after the 18 preamble words every word is a Sync, an Idle, the
address codeword or a message codeword, and no two of these kinds, nor the preamble word, can be equal. -/
def Obligations.TransmissionWordsAreDistinguishable : Prop :=
  (∀ (a : BitVec 21) (msg : List Byte),
    (transmissionWords 3#2 a msg).take 18 = List.replicate 18 Config.preambleWord ∧
    ∀ w ∈ (transmissionWords 3#2 a msg).drop 18,
      w = Config.sync ∨ w = Config.idle ∨ w = addrCodeword 3#2 a ∨ ∃ field, w = messageCodeword field) ∧
  (∀ a : BitVec 21, addrCodeword 3#2 a ≠ Config.sync ∧ addrCodeword 3#2 a ≠ Config.idle ∧
    addrCodeword 3#2 a ≠ Config.preambleWord) ∧
  (∀ (field : BitVec 20) (a : BitVec 21), messageCodeword field ≠ Config.sync ∧ messageCodeword field ≠ Config.idle ∧
    messageCodeword field ≠ addrCodeword 3#2 a ∧ messageCodeword field ≠ Config.preambleWord) ∧
  Config.sync.extractLsb' 11 21 = 0x0F9A42#21 ∧ Config.idle.extractLsb' 11 21 = 0x0F5138#21

/-! ## The text packer -/

/-- R121, R122, R124: the message codewords of `PACK_TEXT` carry the message's bits, each character's bit 0 first, cut into
fields of 20 with no regard to characters, the last one filled with zeros; each is the codeword of its field. -/
def Obligations.PackedFieldsAreTheBitStream : Prop :=
  ∀ (w0 : Nat) (msg : List Byte), w0 < 16 →
    ((packText w0 msg).filter (fun w => w.getLsbD 31)).flatMap dataBits =
      msg.flatMap charBits ++ List.replicate (20 * messageWords msg.length - 7 * msg.length) false ∧
    ∀ w ∈ packText w0 msg, w.getLsbD 31 = true → w = messageCodeword (w.extractLsb' 11 20)

/-- R123, with the word count that R125 marks as derived: from word position `w0`, a word of `PACK_TEXT` is a Sync exactly
where a batch has just been filled, also at the very end; every other word is a message codeword. -/
def Obligations.SyncClosesEveryFilledBatch : Prop :=
  ∀ (w0 : Nat) (msg : List Byte), w0 < 16 →
    (packText w0 msg).length = messageWords msg.length + (w0 + messageWords msg.length) / 16 ∧
    ∀ (i : Nat) (w : Word), (packText w0 msg)[i]? = some w →
      if (w0 + i) % 17 = 16 then w = Config.sync else w.getLsbD 31 = true

/-- How many message codewords and Syncs `PACK_TEXT` gives, and the word position it ends at: what R125 marks as derived. -/
def Obligations.PackedTextCounts : Prop :=
  ∀ (w0 : Nat) (msg : List Byte), w0 < 16 →
    (packText w0 msg).countP (fun w => w.getLsbD 31) = messageWords msg.length ∧
    (packText w0 msg).count Config.sync = (w0 + messageWords msg.length) / 16 ∧
    (packing w0 msg).wpos = wposAfter w0 msg.length ∧ (packing w0 msg).n = 0

/-- R120: bit 7 of a message byte is read by nothing: bytes with the same low 7 bits pack and transmit identically. -/
def Obligations.HighBitOfACharacterIsIgnored : Prop :=
  ∀ (msg msg' : List Byte), List.Forall₂ SameChar msg msg' →
    (∀ w0, packText w0 msg = packText w0 msg') ∧
    ∀ f a, encodeTransmission f a msg = encodeTransmission f a msg'

/-- R128: the byte step of `PH_MSG` appends the 7 bits of one message byte to the bits held, and emits one message codeword
when that makes 20 or more; nothing else changes. -/
def Obligations.ByteStepPacksOneCharacter : Prop :=
  ∀ s : State, Inv s → s.host = [] → s.ph = .msg → s.cidx.toNat < s.mlen.toNat →
    let bits := heldBits s ++ charBits (memRead s s.cidx)
    if bits.length < 20 then
      step s = .next { s with
        acc := fieldOf bits, nbits := BitVec.ofNat 5 bits.length, cidx := s.cidx + 1#Config.lenW }
    else
      step s = .next { emit (messageCodeword (fieldOf (bits.take 20))) s with
        gcnt := BitVec.ofNat 5 ((s.gcnt.toNat + 1) % 17), acc := fieldOf (bits.drop 20),
        nbits := BitVec.ofNat 5 (bits.length - 20), wpos := s.wpos + 1#5, cidx := s.cidx + 1#Config.lenW,
        ph := if s.wpos.toNat + 1 = 16 then .msync else .msg }

/-- R129, R130, R131: the flush step, the leaving step (to the trailing Idle under `ENC`, to the end under `PACK`) and the
batch-boundary Sync, "entered only with `WPOS = 16`". -/
def Obligations.PackerFlushLeaveAndSyncSteps : Prop :=
  ∀ s : State, Inv s → s.host = [] →
    (s.ph = .msg → s.cidx = s.mlen → s.nbits ≠ 0#5 →
      step s = .next { emit (messageCodeword (s.acc <<< (20 - s.nbits.toNat))) s with
        gcnt := BitVec.ofNat 5 ((s.gcnt.toNat + 1) % 17), acc := 0#20, nbits := 0#5, wpos := s.wpos + 1#5,
        ph := if s.wpos.toNat + 1 = 16 then .msync else .msg }) ∧
    (s.ph = .msg → s.cidx = s.mlen → s.nbits = 0#5 →
      (s.op = 4#3 → step s = .next { s with ph := .tail }) ∧
      (s.op = 2#3 → step s = .next { s with ph := .idle, done := true })) ∧
    (s.ph = .msync →
      s.wpos = 16#5 ∧
      step s = .next { emit Config.sync s with
        gcnt := BitVec.ofNat 5 ((s.gcnt.toNat + 1) % 17), wpos := 0#5, ph := .msg })

/-! ## The sequencer -/

/-- R154, R156, R158, R159: the first Sync, the address codeword, the trailing Idle and the batch padding, with what the
rules say of the state they find. -/
def Obligations.FrameSequencerSteps : Prop :=
  ∀ s : State, Inv s → s.host = [] →
    (s.ph = .sync0 →
      s.gcnt = 0#5 ∧ s.wpos = 0#5 ∧
      step s = .next { emit Config.sync s with gcnt := 1#5, ph := if s.padn = 0#3 then .addrW else .padPre }) ∧
    (s.ph = .addrW →
      s.wpos.toNat = (padCount s.a).toNat ∧ s.acc = 0#20 ∧ s.nbits = 0#5 ∧ s.cidx = 0#Config.lenW ∧
      step s = .next { emit (assemble (addrPayload Config.textDataFlag s.a)) s with
        gcnt := BitVec.ofNat 5 ((s.gcnt.toNat + 1) % 17), wpos := s.wpos + 1#5, ph := .msg }) ∧
    (s.ph = .tail →
      s.wpos.toNat ≤ 15 ∧
      step s = .next { emit Config.idle s with
        gcnt := BitVec.ofNat 5 ((s.gcnt.toNat + 1) % 17), wpos := s.wpos + 1#5, ph := .padPost }) ∧
    (s.ph = .padPost →
      (s.gcnt = 0#5 ↔ s.wpos = 16#5) ∧
      (s.gcnt ≠ 0#5 → step s = .next { emit Config.idle s with
        gcnt := BitVec.ofNat 5 ((s.gcnt.toNat + 1) % 17), wpos := s.wpos + 1#5 }) ∧
      (s.gcnt = 0#5 → step s = .next { s with ph := .idle, done := true }))

/-- R153, R155: one preamble word a step, 18 times in an `ENC` run; one Idle a step, `PAD_COUNT(A)` times; what each of
these steps leaves, and the phase of the run after each step until the address codeword is due. -/
def Obligations.PreambleAndPaddingPhases : Prop :=
  (∀ s : State, s.host = [] → s.ph = .pre →
    step s = .next { emit Config.preambleWord s with
      pcnt := s.pcnt + 1#5, ph := if s.pcnt.toNat + 1 = 18 then .sync0 else .pre }) ∧
  (∀ s : State, s.host = [] → s.ph = .padPre →
    step s = .next { emit Config.idle s with
      gcnt := BitVec.ofNat 5 ((s.gcnt.toNat + 1) % 17), wpos := s.wpos + 1#5, padn := s.padn - 1#3,
      ph := if s.padn - 1#3 = 0#3 then .addrW else .padPre }) ∧
  ∀ (a : BitVec 21) (s : State) (k : Nat), s.ph = .idle → k ≤ 19 + (padCount a).toNat →
    ∃ t, runSteps (1 + k) (commanded (encode (.enc a)) s) = .next t ∧
      if k < 18 then t.ph = .pre ∧ t.pcnt.toNat = k
      else if k = 18 then t.ph = .sync0 ∧ t.pcnt.toNat = 18
      else if k < 19 + (padCount a).toNat then t.ph = .padPre ∧ t.padn.toNat = 19 + (padCount a).toNat - k
      else t.ph = .addrW ∧ t.padn = 0#3

/-- R160: the phase graph. Every step goes along one of its edges, on that edge's condition, and no edge depends on what the
message bytes are, nor on the address beyond `PADN`. That every run ends is a statement of its own (`EveryRunEnds`). A
reserved command word is taken as ignored (log 3). -/
def Obligations.PhaseGraphEdges : Prop :=
  (∀ s : State, Inv s → s.host = [] → ∃ t, step s = .next t ∧
    (s.ph = .idle → t.ph = .idle) ∧
    (s.ph = .pre → t.ph = if s.pcnt.toNat + 1 < 18 then .pre else .sync0) ∧
    (s.ph = .sync0 → t.ph = if s.padn ≠ 0#3 then .padPre else .addrW) ∧
    (s.ph = .padPre → t.ph = if s.padn.toNat - 1 ≠ 0 then .padPre else .addrW) ∧
    (s.ph = .addrW → t.ph = .msg) ∧
    (s.ph = .msg → (s.cidx ≠ s.mlen ∨ s.nbits ≠ 0#5) → t.ph = if t.wpos.toNat ≠ 16 then .msg else .msync) ∧
    (s.ph = .msg → s.cidx = s.mlen → s.nbits = 0#5 → (s.op = 4#3 ∧ t.ph = .tail) ∨ (s.op = 2#3 ∧ t.ph = .idle)) ∧
    (s.ph = .msync → t.ph = .msg) ∧
    (s.ph = .tail → t.ph = .padPost) ∧
    (s.ph = .padPost → t.ph = if s.gcnt ≠ 0#5 then .padPost else .idle)) ∧
  (∀ (i : Instr) (s : State), s.ph = .idle → ∃ t, exec i s = .next t ∧
    t.ph = match i with
      | .cw _ => .idle
      | .pack _ => .msg
      | .addr _ => .idle
      | .enc _ => .pre
      | .len _ => .idle) ∧
  (∀ (c : Word) (s : State) (rest : List HostMove), (∃ e, decode c = .error e) → s.host = .write .cmd c :: rest →
    s.ph = .idle → ∃ t, step s = .next t ∧ t.ph = .idle) ∧
  ∀ (s : State) (m : Memory) (a : BitVec 21), (sequencerStep { s with msg := m, a := a }).ph = (sequencerStep s).ph

/-- R53, R151: `Emit(w)` puts the four bytes of `w` at `OUT[OCNT..OCNT+3]`, least significant first, adds 4 to `OCNT`, and
leaves every other byte and register alone. -/
def Obligations.EmitIsLittleEndian : Prop :=
  ∀ (w : Word) (s : State), s.ocnt.toNat + 4 ≤ 2 ^ 32 →
    ser32 w = [w.extractLsb' 0 8, w.extractLsb' 8 8, w.extractLsb' 16 8, w.extractLsb' 24 8] ∧
    (∀ k, k < 4 → (emit w s).out.read? (s.ocnt.toNat + k) = some (w.extractLsb' (8 * k) 8)) ∧
    (∀ j, j < s.ocnt.toNat ∨ s.ocnt.toNat + 4 ≤ j → (emit w s).out.read? j = s.out.read? j) ∧
    emit w s = { s with out := (emit w s).out, ocnt := s.ocnt + 4#32 }

/-- What R52 marks as derived: a step of the sequencer writes nothing to `OUT`, or exactly the four bytes from `OUT[OCNT]`
on, and `OCNT` goes past them; no move of the host writes `OUT`. -/
def Obligations.OutputIsAppendOnly : Prop :=
  (∀ s : State, Inv s → s.ocnt.toNat + 4 < 2 ^ 32 →
    ((sequencerStep s).ocnt = s.ocnt ∧ ∀ j, (sequencerStep s).out.read? j = s.out.read? j) ∨
    ((sequencerStep s).ocnt.toNat = s.ocnt.toNat + 4 ∧
      (∃ w : Word, ∀ k, k < 4 → (sequencerStep s).out.read? (s.ocnt.toNat + k) = some (w.extractLsb' (8 * k) 8)) ∧
      ∀ j, j < s.ocnt.toNat ∨ s.ocnt.toNat + 4 ≤ j → (sequencerStep s).out.read? j = s.out.read? j)) ∧
  ∀ (m : HostMove) (s t : State), m ≠ .quiet → m ≠ .awaitIdle → hostMove m s = .next t → t.out = s.out

/-- What R51 marks as derived: the core reads the message only in the byte step, only at `CIDX`, only below `MLEN`, and
`CIDX` counts those reads: whatever the other bytes are, the step is the same. -/
def Obligations.CoreReadsOnlyTheNextMessageByte : Prop :=
  ∀ (s : State) (m : Memory),
    (s.ph = .msg → s.cidx.toNat < s.mlen.toNat → msgByte m s.cidx.toNat = msgByte s.msg s.cidx.toNat) →
    sequencerStep { s with msg := m } = { sequencerStep s with msg := m } ∧
    (sequencerStep s).msg = s.msg ∧
    (sequencerStep s).cidx = if s.ph = .msg ∧ s.cidx.toNat < s.mlen.toNat then s.cidx + 1#Config.lenW else s.cidx

/-! ## Invariants of the machine -/

/-- The invariant, with the bounds R39 marks as derived, holds right after reset (R37). -/
def Obligations.InvariantHoldsAtReset : Prop := Inv State.reset

/-- The bounds R39 marks as derived, with `CIDX <= MLEN` read as holding while a command runs (log 12): every step, of the
sequencer or of the host, keeps the bounds, the phase relations, the canonical form of both memories and `OUT` written below
`OCNT`. -/
def Obligations.EveryStepKeepsTheInvariant : Prop :=
  ∀ s t : State, Inv s → step s = .next t → Inv t

/-- Under `ENC`, after every step of a phase from `PH_SYNC0` on, `GCNT = (WPOS + 1) mod 17`, and `GCNT` is 0 on entry to
`PH_MSYNC` and 1 on exit: what R30 and R131 mark as derived. `OP` is 2 or 4 in the packer's phases (R130, marked derived). -/
def Obligations.GroupCountTracksWordPosition : Prop :=
  (∀ s : State, Inv s → s.ph = .msg ∨ s.ph = .msync → s.op = 2#3 ∨ s.op = 4#3) ∧
  (∀ s : State, Inv s → s.ph = .msync → s.op = 4#3 → s.gcnt = 0#5 ∧ (sequencerStep s).gcnt = 1#5) ∧
  ∀ s t : State, Inv s → s.host = [] → s.op = 4#3 → s.ph ≠ .idle → s.ph ≠ .pre → step s = .next t →
    t.gcnt.toNat = (t.wpos.toNat + 1) % 17

/-! ## The host interface -/

/-- R37, R210: reset takes every register to 0 and `PH` to `PH_IDLE`, whatever the core was doing; the message memory is not
touched, no byte of `OUT` is defined any more, and the core then waits. -/
def Obligations.ResetRestoresEveryRegister : Prop :=
  (∀ (s : State) (rest : List HostMove), s.host = .reset :: rest →
    ∃ t, step s = .next t ∧
      t = { ph := .idle, op := 0#3, a := 0#21, mlen := 0#Config.lenW, cidx := 0#Config.lenW, acc := 0#20, nbits := 0#5,
            wpos := 0#5, pcnt := 0#5, padn := 0#3, gcnt := 0#5, r0 := 0#32, r1 := 0#32, done := false, ocnt := 0#32,
            out := s.out, msg := s.msg, host := rest } ∧
      t.busy = false ∧ (∀ j, t.outByte? j = none) ∧ step { t with host := [] } = .next { t with host := [] }) ∧
  State.reset = { ph := .idle, op := 0#3, a := 0#21, mlen := 0#Config.lenW, cidx := 0#Config.lenW, acc := 0#20,
                  nbits := 0#5, wpos := 0#5, pcnt := 0#5, padn := 0#3, gcnt := 0#5, r0 := 0#32, r1 := 0#32, done := false,
                  ocnt := 0#32, out := State.reset.out, msg := State.reset.msg, host := State.reset.host }

/-- R214: a host write to `CMD` or to `MLEN` while `BUSY = 1` changes no register and launches nothing. -/
def Obligations.WritesWhileBusyAreIgnored : Prop :=
  ∀ (s : State) (r : HostReg) (v : Word) (rest : List HostMove),
    s.ph ≠ .idle → (r = .cmd ∨ r = .mlen) → s.host = .write r v :: rest →
    step s = .next { s with host := rest }

/-- R38: the fields the host reads; a read has no side effect; a write to `MLEN` while `BUSY = 0` takes its `LEN_W` bits.
That the read-only registers ignore a write is read from the rule by inference (log 10). -/
def Obligations.HostRegisterAccess : Prop :=
  (∀ s : State,
    (hostRead s .cmd).extractLsb' 29 3 = s.op ∧ (hostRead s .cmd).extractLsb' 21 8 = 0#8 ∧
    (hostRead s .cmd).extractLsb' 0 21 = s.a ∧
    hostRead s .mlen = s.mlen.setWidth 32 ∧
    (hostRead s .status).getLsbD 0 = decide (s.ph ≠ .idle) ∧ (hostRead s .status).getLsbD 1 = s.done ∧
    (hostRead s .status).extractLsb' 2 30 = 0#30 ∧
    hostRead s .r0 = s.r0 ∧ hostRead s .r1 = s.r1 ∧ hostRead s .ocnt = s.ocnt) ∧
  (∀ (s : State) (r : HostReg) (rest : List HostMove), s.host = .read r :: rest →
    step s = .next { s with host := rest }) ∧
  (∀ (s : State) (v : Word) (rest : List HostMove), s.ph = .idle → s.host = .write .mlen v :: rest →
    step s = .next { s with host := rest, mlen := v.extractLsb' 0 Config.lenW }) ∧
  (∀ (s : State) (r : HostReg) (v : Word) (rest : List HostMove), r ≠ .cmd → r ≠ .mlen →
    s.host = .write r v :: rest → step s = .next { s with host := rest })

/-- R32: `BUSY = (PH != PH_IDLE)`; a launch writes `DONE <- 0` for `PACK`, `ENC` and `DONE <- 1` for `CW`, `ADDR`, `LEN`; a
step that returns `PH` to `PH_IDLE` writes `DONE <- 1`; no other step and no other move of the host but reset writes it. -/
def Obligations.DoneIsWrittenAtLaunchAndEnd : Prop :=
  (∀ s : State, s.busy = true ↔ s.ph ≠ .idle) ∧
  (∀ (i : Instr) (s : State), s.ph = .idle → ∃ t, exec i s = .next t ∧
    t.done = match i with
      | .cw _ => true
      | .pack _ => false
      | .addr _ => true
      | .enc _ => false
      | .len _ => true) ∧
  (∀ s : State, s.ph ≠ .idle →
    (sequencerStep s).done = if (sequencerStep s).ph = .idle then true else s.done) ∧
  ∀ (m : HostMove) (s t : State), hostMove m s = .next t →
    t.done = s.done ∨ m = .reset ∨ (m = .quiet ∧ s.ph ≠ .idle) ∨ (m = .awaitIdle ∧ s.ph ≠ .idle) ∨
      ∃ c i, m = .write .cmd c ∧ decode c = .ok i ∧ s.ph = .idle

/-- What no command changes, in its launch step, as `exec` answers a next state: all of `MSG` and of `OUT`, `MLEN`, the
host's moves; for `CW`, `ADDR`, `LEN` every working register; for `PACK` and `ENC` the result registers, and for `PACK` also
`PCNT` and `PADN`; and while a command runs, nothing at all changes (R73, R104, R126, R143, R152, R181, R214). -/
def Obligations.CommandFrame : Prop :=
  ∀ (i : Instr) (s t : State), exec i s = .next t →
    (∀ j, t.msg.read? j = s.msg.read? j) ∧ (∀ j, t.out.read? j = s.out.read? j) ∧
    t.mlen = s.mlen ∧ t.host = s.host ∧
    (s.ph ≠ .idle → t = s) ∧
    match i with
    | .cw _ | .addr _ | .len _ =>
      t.ph = s.ph ∧ t.cidx = s.cidx ∧ t.acc = s.acc ∧ t.nbits = s.nbits ∧ t.wpos = s.wpos ∧ t.pcnt = s.pcnt ∧
        t.padn = s.padn ∧ t.gcnt = s.gcnt
    | .pack _ => t.r0 = s.r0 ∧ t.r1 = s.r1 ∧ t.pcnt = s.pcnt ∧ t.padn = s.padn
    | .enc _ => t.r0 = s.r0 ∧ t.r1 = s.r1

/-- What the step rules leave alone (R22, R23, R27 to R31): `OP`, `A`, `MLEN`, `R0`, `R1`, the message memory and the host's
moves always; `PCNT` outside `PH_PRE`, `PADN` outside `PH_PADPRE`, the packer's registers outside `PH_MSG`, `WPOS` in the
phases that emit no codeword, `GCNT` in `PH_PRE`. -/
def Obligations.SequencerFrame : Prop :=
  ∀ s : State,
    (sequencerStep s).op = s.op ∧ (sequencerStep s).a = s.a ∧ (sequencerStep s).mlen = s.mlen ∧
    (sequencerStep s).r0 = s.r0 ∧ (sequencerStep s).r1 = s.r1 ∧ (sequencerStep s).host = s.host ∧
    (∀ j, (sequencerStep s).msg.read? j = s.msg.read? j) ∧
    (s.ph ≠ .pre → (sequencerStep s).pcnt = s.pcnt) ∧
    (s.ph ≠ .padPre → (sequencerStep s).padn = s.padn) ∧
    (s.ph ≠ .msg →
      (sequencerStep s).cidx = s.cidx ∧ (sequencerStep s).acc = s.acc ∧ (sequencerStep s).nbits = s.nbits) ∧
    (s.ph = .idle ∨ s.ph = .pre ∨ s.ph = .sync0 → (sequencerStep s).wpos = s.wpos) ∧
    (s.ph = .idle ∨ s.ph = .pre → (sequencerStep s).gcnt = s.gcnt) ∧
    (s.ph = .idle → sequencerStep s = s)

/-- What R211 marks as derived: no command's result depends on what an earlier command left behind: from two idle states
with the same `MLEN` and message, a command's run shows the host the same status and output after every step, and the same
results. -/
def Obligations.ResultsDependOnlyOnTheMessage : Prop :=
  ∀ (i : Instr) (s t : State), i.wellFormed = true → s.ph = .idle → t.ph = .idle → SameMessage s t →
    ∀ k, ∃ s' t', runSteps (1 + k) (commanded (encode i) s) = .next s' ∧
      runSteps (1 + k) (commanded (encode i) t) = .next t' ∧ SameOutput s' t' ∧
      match i with
      | .cw _ | .addr _ | .len _ => s'.r0 = t'.r0 ∧ s'.r1 = t'.r1
      | .pack _ | .enc _ => s'.wpos = t'.wpos

/-- R190: no step raises anything. The one thing the model refuses is a change of the running command's message, a move the
spec does not give the host (R213, U5; log 8). -/
def Obligations.OnlyAMessageChangeIsRefused : Prop :=
  ∀ s : State,
    ((∃ t, step s = .next t) ↔
      ¬ ∃ i b rest, s.host = .placeMsg i b :: rest ∧ s.ph ≠ .idle ∧ i.toNat < s.mlen.toNat ∧
        s.msg.read? i.toNat ≠ some b) ∧
    ((∃ t, step s = .next t) ∨ step s = .refused .messageChangedWhileBusy)

/-- A step runs the decoded command: when the host's next move writes `c` to `CMD` and `c` is the command word of `i`, the
step takes the move off the host's list and is `exec` of `i`; so it is for a word placed by `withFetchWord`. -/
def Obligations.StepRunsTheDecodedCommand : Prop :=
  (∀ (c : Word) (i : Instr) (s : State) (rest : List HostMove), decode c = .ok i → s.host = .write .cmd c :: rest →
    step s = exec i { s with host := rest }) ∧
  ∀ (nbits w : Nat) (i : Instr) (s : State), decodeTableWord nbits w = some i →
    step (s.withFetchWord nbits w) = exec i { s with ph := .idle }

/-- A step without a move of the host, or with one that lets the core run, is the step rule of the phase in `PH` (R21). The
host's moves are the model's own (log 1). -/
def Obligations.StepRunsTheSequencer : Prop :=
  (∀ s : State, s.host = [] → step s = .next (sequencerStep s)) ∧
  (∀ (s : State) (rest : List HostMove), s.host = .quiet :: rest →
    step s = .next (sequencerStep { s with host := rest })) ∧
  (∀ (s : State) (rest : List HostMove), s.host = .awaitIdle :: rest →
    step s = .next (if s.ph = .idle then { s with host := rest } else sequencerStep s))

/-- "The one promise is termination: every command completes after finitely many steps" (R216): from every state the
invariant allows, a running command completes. -/
def Obligations.EveryRunEnds : Prop :=
  ∀ s : State, Inv s → s.host = [] → s.ph ≠ .idle → ∃ k t, runSteps k s = .next t ∧ Completed t

/-- R217, R196: with no command running and no move of the host, nothing happens (the model's step then answers the same
state, log 13). -/
def Obligations.IdleCoreWaits : Prop :=
  ∀ (s : State) (k : Nat), s.host = [] → s.ph = .idle → runSteps k s = .next s

/-- Moves of the host that launch nothing and do not let the core run change only what they are about (R38, R212): `MLEN`, or
one byte of the message memory. The moves are the model's own (log 1). -/
def Obligations.HostMoveFrame : Prop :=
  (∀ (i : BitVec Config.lenW) (b : Byte) (s t : State), hostMove (.placeMsg i b) s = .next t →
    t = { s with msg := t.msg } ∧ t.msg.read? i.toNat = some b ∧ ∀ j, j ≠ i.toNat → t.msg.read? j = s.msg.read? j) ∧
  (∀ (v : Word) (s t : State), hostMove (.write .mlen v) s = .next t → t = { s with mlen := t.mlen })
end

