-- ==== Sys2Proof/Laws/Codeword.lean ====
section
/-! SUPPORT. The codeword assembler as a linear map: two linear maps that agree on the one-bit words agree everywhere
(`40_codeword_assembler.md` R101 law 2, R105 law 3: "fixed by its value on the 21 one-bit payloads"). -/

namespace Sys2Proof.Machine

/-! The bits of the concatenations, at their fixed widths. -/

theorem getLsbD_payloadCrc (p : BitVec 21) (r : BitVec 10) (i : Nat) :
    (payloadCrc p r).getLsbD i = if i < 10 then r.getLsbD i else p.getLsbD (i - 10) := by
  rw [payloadCrc, BitVec.getLsbD_append]

theorem getLsbD_withParity (v : BitVec 31) (i : Nat) :
    (withParity v).getLsbD i = if i = 0 then par31 v else v.getLsbD (i - 1) := by
  rw [withParity, BitVec.getLsbD_append]
  rcases i with _ | i
  · simp
  · simp

theorem getLsbD_messagePayload (f : BitVec 20) (i : Nat) :
    (messagePayload f).getLsbD i = if i < 20 then f.getLsbD i else decide (i = 20) := by
  rw [messagePayload, BitVec.getLsbD_append]
  split
  · simp [*]
  · rename_i h
    by_cases h20 : i = 20
    · subst h20; rfl
    · rw [BitVec.getLsbD_of_ge _ _ (by omega)]; simp [h20]

theorem payloadCrc_xor (p q : BitVec 21) (r s : BitVec 10) :
    payloadCrc (p ^^^ q) (r ^^^ s) = payloadCrc p r ^^^ payloadCrc q s := by
  apply BitVec.eq_of_getLsbD_eq
  intro i _
  simp only [getLsbD_payloadCrc, BitVec.getLsbD_xor]
  split <;> rfl

theorem extractLsb'_payloadCrc_low (p : BitVec 21) (r : BitVec 10) : (payloadCrc p r).extractLsb' 0 10 = r := by
  apply BitVec.eq_of_getLsbD_eq
  intro i hi
  simp [getLsbD_payloadCrc, hi]

/-- A map of bit vectors that turns XOR into XOR. -/
def Linear {n m : Nat} (f : BitVec n → BitVec m) : Prop := ∀ x y, f (x ^^^ y) = f x ^^^ f y

theorem Linear.zero {n m : Nat} {f : BitVec n → BitVec m} (h : Linear f) : f 0#n = 0#m := by
  have := h 0#n 0#n
  simpa using this

/-- Linear maps that agree on the one-bit words are equal. -/
theorem Linear.ext {n m : Nat} {f g : BitVec n → BitVec m} (hf : Linear f) (hg : Linear g)
    (h : ∀ i, i < n → f (BitVec.twoPow n i) = g (BitVec.twoPow n i)) (x : BitVec n) : f x = g x := by
  suffices H : ∀ k, k ≤ n → ∀ x : BitVec n, (∀ i, k ≤ i → x.getLsbD i = false) → f x = g x from
    H n le_rfl x (fun i hi => BitVec.getLsbD_of_ge x i hi)
  intro k
  induction k with
  | zero =>
    intro _ x hx
    have : x = 0#n := BitVec.eq_of_getLsbD_eq (fun i _ => by simpa using hx i (Nat.zero_le _))
    rw [this, hf.zero, hg.zero]
  | succ k ih =>
    intro hk x hx
    by_cases hb : x.getLsbD k = true
    · have hsplit : x = (x ^^^ BitVec.twoPow n k) ^^^ BitVec.twoPow n k := by
        rw [BitVec.xor_assoc, BitVec.xor_self, BitVec.xor_zero]
      rw [hsplit, hf, hg, h k (by omega), ih (by omega) (x ^^^ BitVec.twoPow n k) ?_]
      intro i hi
      rcases Nat.eq_or_lt_of_le hi with rfl | hi
      · simp [BitVec.getLsbD_xor, hb, BitVec.getLsbD_twoPow]; omega
      · simp [BitVec.getLsbD_xor, hx i hi, BitVec.getLsbD_twoPow]; omega
    · refine ih (by omega) x (fun i hi => ?_)
      rcases Nat.eq_or_lt_of_le hi with rfl | hi
      · simpa using hb
      · exact hx i hi

theorem foldl_xor {α : Type} {n : Nat} (f : BitVec n → α → BitVec n) (h : ∀ k, Linear (fun x => f x k)) (l : List α) :
    Linear (fun x => l.foldl f x) := by
  induction l with
  | nil => intro x y; rfl
  | cons k l ih =>
    intro x y
    simp only [List.foldl_cons]
    rw [show f (x ^^^ y) k = f x k ^^^ f y k from h k x y]
    exact ih _ _

/-- One column of the division is linear. -/
theorem crcColumn_linear (col : Nat) : Linear (fun acc => crcColumn acc col) := by
  intro x y
  simp only [crcColumn, BitVec.getLsbD_xor]
  generalize Config.gen.setWidth 31 <<< (20 - col) = g
  cases x.getLsbD (30 - col) <;> cases y.getLsbD (30 - col)
  · rfl
  · exact BitVec.xor_assoc x y g
  · show x ^^^ y ^^^ g = x ^^^ g ^^^ y
    ac_rfl
  · have : x ^^^ g ^^^ (y ^^^ g) = x ^^^ y ^^^ (g ^^^ g) := by ac_rfl
    show x ^^^ y = x ^^^ g ^^^ (y ^^^ g)
    rw [this, BitVec.xor_self, BitVec.xor_zero]

theorem crcDivide_linear : Linear crcDivide := foldl_xor crcColumn crcColumn_linear _

end Sys2Proof.Machine
end

