-- ==== Sys2Proof/Laws/State.lean ====
section
/-! SUPPORT. One lemma per field for each shared update of the state, each true by `rfl`, so that no later proof unfolds a
record update. -/

namespace Sys2Proof.Machine

variable (s : State)

/-! `emit`: four bytes from `OUT[OCNT]` on. -/

@[simp] theorem emit_ph (w : Word) : (emit w s).ph = s.ph := rfl
@[simp] theorem emit_op (w : Word) : (emit w s).op = s.op := rfl
@[simp] theorem emit_a (w : Word) : (emit w s).a = s.a := rfl
@[simp] theorem emit_mlen (w : Word) : (emit w s).mlen = s.mlen := rfl
@[simp] theorem emit_cidx (w : Word) : (emit w s).cidx = s.cidx := rfl
@[simp] theorem emit_acc (w : Word) : (emit w s).acc = s.acc := rfl
@[simp] theorem emit_nbits (w : Word) : (emit w s).nbits = s.nbits := rfl
@[simp] theorem emit_wpos (w : Word) : (emit w s).wpos = s.wpos := rfl
@[simp] theorem emit_pcnt (w : Word) : (emit w s).pcnt = s.pcnt := rfl
@[simp] theorem emit_padn (w : Word) : (emit w s).padn = s.padn := rfl
@[simp] theorem emit_gcnt (w : Word) : (emit w s).gcnt = s.gcnt := rfl
@[simp] theorem emit_r0 (w : Word) : (emit w s).r0 = s.r0 := rfl
@[simp] theorem emit_r1 (w : Word) : (emit w s).r1 = s.r1 := rfl
@[simp] theorem emit_done (w : Word) : (emit w s).done = s.done := rfl
@[simp] theorem emit_ocnt (w : Word) : (emit w s).ocnt = s.ocnt + 4#32 := rfl
@[simp] theorem emit_out (w : Word) : (emit w s).out = memWrites (ser32 w) s.ocnt s.out := rfl
@[simp] theorem emit_msg (w : Word) : (emit w s).msg = s.msg := rfl
@[simp] theorem emit_host (w : Word) : (emit w s).host = s.host := rfl

/-! `emitCounted`: a word of the sync region. -/

@[simp] theorem emitCounted_ph (w : Word) : (emitCounted w s).ph = s.ph := rfl
@[simp] theorem emitCounted_op (w : Word) : (emitCounted w s).op = s.op := rfl
@[simp] theorem emitCounted_a (w : Word) : (emitCounted w s).a = s.a := rfl
@[simp] theorem emitCounted_mlen (w : Word) : (emitCounted w s).mlen = s.mlen := rfl
@[simp] theorem emitCounted_cidx (w : Word) : (emitCounted w s).cidx = s.cidx := rfl
@[simp] theorem emitCounted_acc (w : Word) : (emitCounted w s).acc = s.acc := rfl
@[simp] theorem emitCounted_nbits (w : Word) : (emitCounted w s).nbits = s.nbits := rfl
@[simp] theorem emitCounted_wpos (w : Word) : (emitCounted w s).wpos = s.wpos := rfl
@[simp] theorem emitCounted_pcnt (w : Word) : (emitCounted w s).pcnt = s.pcnt := rfl
@[simp] theorem emitCounted_padn (w : Word) : (emitCounted w s).padn = s.padn := rfl
@[simp] theorem emitCounted_gcnt (w : Word) : (emitCounted w s).gcnt = nextGroupCount s.gcnt := rfl
@[simp] theorem emitCounted_r0 (w : Word) : (emitCounted w s).r0 = s.r0 := rfl
@[simp] theorem emitCounted_r1 (w : Word) : (emitCounted w s).r1 = s.r1 := rfl
@[simp] theorem emitCounted_done (w : Word) : (emitCounted w s).done = s.done := rfl
@[simp] theorem emitCounted_ocnt (w : Word) : (emitCounted w s).ocnt = s.ocnt + 4#32 := rfl
@[simp] theorem emitCounted_out (w : Word) : (emitCounted w s).out = memWrites (ser32 w) s.ocnt s.out := rfl
@[simp] theorem emitCounted_msg (w : Word) : (emitCounted w s).msg = s.msg := rfl
@[simp] theorem emitCounted_host (w : Word) : (emitCounted w s).host = s.host := rfl

/-! `emitField`: a message codeword. -/

@[simp] theorem emitField_ph (f : BitVec 20) : (emitField f s).ph = s.ph := rfl
@[simp] theorem emitField_op (f : BitVec 20) : (emitField f s).op = s.op := rfl
@[simp] theorem emitField_a (f : BitVec 20) : (emitField f s).a = s.a := rfl
@[simp] theorem emitField_mlen (f : BitVec 20) : (emitField f s).mlen = s.mlen := rfl
@[simp] theorem emitField_cidx (f : BitVec 20) : (emitField f s).cidx = s.cidx := rfl
@[simp] theorem emitField_acc (f : BitVec 20) : (emitField f s).acc = 0#20 := rfl
@[simp] theorem emitField_nbits (f : BitVec 20) : (emitField f s).nbits = 0#5 := rfl
@[simp] theorem emitField_wpos (f : BitVec 20) : (emitField f s).wpos = nextWordPosition s.wpos := rfl
@[simp] theorem emitField_pcnt (f : BitVec 20) : (emitField f s).pcnt = s.pcnt := rfl
@[simp] theorem emitField_padn (f : BitVec 20) : (emitField f s).padn = s.padn := rfl
@[simp] theorem emitField_gcnt (f : BitVec 20) : (emitField f s).gcnt = nextGroupCount s.gcnt := rfl
@[simp] theorem emitField_r0 (f : BitVec 20) : (emitField f s).r0 = s.r0 := rfl
@[simp] theorem emitField_r1 (f : BitVec 20) : (emitField f s).r1 = s.r1 := rfl
@[simp] theorem emitField_done (f : BitVec 20) : (emitField f s).done = s.done := rfl
@[simp] theorem emitField_ocnt (f : BitVec 20) : (emitField f s).ocnt = s.ocnt + 4#32 := rfl
@[simp] theorem emitField_out (f : BitVec 20) : (emitField f s).out = memWrites (ser32 (messageCodeword f)) s.ocnt s.out := rfl
@[simp] theorem emitField_msg (f : BitVec 20) : (emitField f s).msg = s.msg := rfl
@[simp] theorem emitField_host (f : BitVec 20) : (emitField f s).host = s.host := rfl

/-! `launch`: the common part of a launch. -/

@[simp] theorem launch_ph (o : BitVec 3) (x : BitVec 21) : (launch o x s).ph = s.ph := rfl
@[simp] theorem launch_op (o : BitVec 3) (x : BitVec 21) : (launch o x s).op = o := rfl
@[simp] theorem launch_a (o : BitVec 3) (x : BitVec 21) : (launch o x s).a = x := rfl
@[simp] theorem launch_mlen (o : BitVec 3) (x : BitVec 21) : (launch o x s).mlen = s.mlen := rfl
@[simp] theorem launch_cidx (o : BitVec 3) (x : BitVec 21) : (launch o x s).cidx = s.cidx := rfl
@[simp] theorem launch_acc (o : BitVec 3) (x : BitVec 21) : (launch o x s).acc = s.acc := rfl
@[simp] theorem launch_nbits (o : BitVec 3) (x : BitVec 21) : (launch o x s).nbits = s.nbits := rfl
@[simp] theorem launch_wpos (o : BitVec 3) (x : BitVec 21) : (launch o x s).wpos = s.wpos := rfl
@[simp] theorem launch_pcnt (o : BitVec 3) (x : BitVec 21) : (launch o x s).pcnt = s.pcnt := rfl
@[simp] theorem launch_padn (o : BitVec 3) (x : BitVec 21) : (launch o x s).padn = s.padn := rfl
@[simp] theorem launch_gcnt (o : BitVec 3) (x : BitVec 21) : (launch o x s).gcnt = s.gcnt := rfl
@[simp] theorem launch_r0 (o : BitVec 3) (x : BitVec 21) : (launch o x s).r0 = s.r0 := rfl
@[simp] theorem launch_r1 (o : BitVec 3) (x : BitVec 21) : (launch o x s).r1 = s.r1 := rfl
@[simp] theorem launch_done (o : BitVec 3) (x : BitVec 21) : (launch o x s).done = s.done := rfl
@[simp] theorem launch_ocnt (o : BitVec 3) (x : BitVec 21) : (launch o x s).ocnt = 0#32 := rfl
@[simp] theorem launch_out (o : BitVec 3) (x : BitVec 21) : (launch o x s).out = s.out := rfl
@[simp] theorem launch_msg (o : BitVec 3) (x : BitVec 21) : (launch o x s).msg = s.msg := rfl
@[simp] theorem launch_host (o : BitVec 3) (x : BitVec 21) : (launch o x s).host = s.host := rfl

/-! `complete`: a command completes. -/

@[simp] theorem complete_ph : (complete s).ph = .idle := rfl
@[simp] theorem complete_op : (complete s).op = s.op := rfl
@[simp] theorem complete_a : (complete s).a = s.a := rfl
@[simp] theorem complete_mlen : (complete s).mlen = s.mlen := rfl
@[simp] theorem complete_cidx : (complete s).cidx = s.cidx := rfl
@[simp] theorem complete_acc : (complete s).acc = s.acc := rfl
@[simp] theorem complete_nbits : (complete s).nbits = s.nbits := rfl
@[simp] theorem complete_wpos : (complete s).wpos = s.wpos := rfl
@[simp] theorem complete_pcnt : (complete s).pcnt = s.pcnt := rfl
@[simp] theorem complete_padn : (complete s).padn = s.padn := rfl
@[simp] theorem complete_gcnt : (complete s).gcnt = s.gcnt := rfl
@[simp] theorem complete_r0 : (complete s).r0 = s.r0 := rfl
@[simp] theorem complete_r1 : (complete s).r1 = s.r1 := rfl
@[simp] theorem complete_done : (complete s).done = true := rfl
@[simp] theorem complete_ocnt : (complete s).ocnt = s.ocnt := rfl
@[simp] theorem complete_out : (complete s).out = s.out := rfl
@[simp] theorem complete_msg : (complete s).msg = s.msg := rfl
@[simp] theorem complete_host : (complete s).host = s.host := rfl

/-! `start`: a command enters the sequencer. -/

@[simp] theorem start_ph (p : Phase) : (start p s).ph = p := rfl
@[simp] theorem start_op (p : Phase) : (start p s).op = s.op := rfl
@[simp] theorem start_a (p : Phase) : (start p s).a = s.a := rfl
@[simp] theorem start_mlen (p : Phase) : (start p s).mlen = s.mlen := rfl
@[simp] theorem start_cidx (p : Phase) : (start p s).cidx = s.cidx := rfl
@[simp] theorem start_acc (p : Phase) : (start p s).acc = s.acc := rfl
@[simp] theorem start_nbits (p : Phase) : (start p s).nbits = s.nbits := rfl
@[simp] theorem start_wpos (p : Phase) : (start p s).wpos = s.wpos := rfl
@[simp] theorem start_pcnt (p : Phase) : (start p s).pcnt = s.pcnt := rfl
@[simp] theorem start_padn (p : Phase) : (start p s).padn = s.padn := rfl
@[simp] theorem start_gcnt (p : Phase) : (start p s).gcnt = s.gcnt := rfl
@[simp] theorem start_r0 (p : Phase) : (start p s).r0 = s.r0 := rfl
@[simp] theorem start_r1 (p : Phase) : (start p s).r1 = s.r1 := rfl
@[simp] theorem start_done (p : Phase) : (start p s).done = false := rfl
@[simp] theorem start_ocnt (p : Phase) : (start p s).ocnt = s.ocnt := rfl
@[simp] theorem start_out (p : Phase) : (start p s).out = s.out := rfl
@[simp] theorem start_msg (p : Phase) : (start p s).msg = s.msg := rfl
@[simp] theorem start_host (p : Phase) : (start p s).host = s.host := rfl

/-! `resetCore`: the reset input. -/

@[simp] theorem resetCore_ph : (resetCore s).ph = State.reset.ph := rfl
@[simp] theorem resetCore_op : (resetCore s).op = State.reset.op := rfl
@[simp] theorem resetCore_a : (resetCore s).a = State.reset.a := rfl
@[simp] theorem resetCore_mlen : (resetCore s).mlen = State.reset.mlen := rfl
@[simp] theorem resetCore_cidx : (resetCore s).cidx = State.reset.cidx := rfl
@[simp] theorem resetCore_acc : (resetCore s).acc = State.reset.acc := rfl
@[simp] theorem resetCore_nbits : (resetCore s).nbits = State.reset.nbits := rfl
@[simp] theorem resetCore_wpos : (resetCore s).wpos = State.reset.wpos := rfl
@[simp] theorem resetCore_pcnt : (resetCore s).pcnt = State.reset.pcnt := rfl
@[simp] theorem resetCore_padn : (resetCore s).padn = State.reset.padn := rfl
@[simp] theorem resetCore_gcnt : (resetCore s).gcnt = State.reset.gcnt := rfl
@[simp] theorem resetCore_r0 : (resetCore s).r0 = State.reset.r0 := rfl
@[simp] theorem resetCore_r1 : (resetCore s).r1 = State.reset.r1 := rfl
@[simp] theorem resetCore_done : (resetCore s).done = State.reset.done := rfl
@[simp] theorem resetCore_ocnt : (resetCore s).ocnt = State.reset.ocnt := rfl
@[simp] theorem resetCore_out : (resetCore s).out = s.out := rfl
@[simp] theorem resetCore_msg : (resetCore s).msg = s.msg := rfl
@[simp] theorem resetCore_host : (resetCore s).host = s.host := rfl

end Sys2Proof.Machine
end

