-- ==== Sys2Proof/Laws/Output.lean ====
section
/-! SUPPORT. What `Emit` does to `OUT`, said once: which bytes it writes, what it leaves alone, that it keeps the canonical
form; and `OUT[0..OCNT-1]` as the concatenation of everything emitted. -/

namespace Sys2Proof.Machine

@[simp] theorem length_ser32 (w : Word) : (ser32 w).length = 4 := rfl

/-- A run of byte writes that does not pass the end of the space. -/
theorem read?_memWrites (bs : List Byte) (j : BitVec 32) (m : Memory) (h : j.toNat + bs.length ≤ 2 ^ 32) (i : Nat) :
    (memWrites bs j m).read? i =
      if j.toNat ≤ i ∧ i < j.toNat + bs.length then bs[i - j.toNat]? else m.read? i := by
  induction bs generalizing j m with
  | nil => simp only [memWrites, List.length_nil]; rw [if_neg (by omega)]
  | cons b bs ih =>
    simp only [List.length_cons] at h
    by_cases hb : bs = []
    · subst hb
      simp only [memWrites, Memory.read?_write, List.length_singleton]
      by_cases hi : i = j.toNat
      · rw [if_pos hi, if_pos (by omega)]; simp [hi]
      · rw [if_neg hi, if_neg (by omega)]
    · have hl : 0 < bs.length := List.length_pos_iff.2 hb
      have hj : (j + 1#32).toNat = j.toNat + 1 := by rw [BitVec.toNat_add]; simp; omega
      simp only [memWrites, List.length_cons]
      rw [ih (j + 1#32) _ (by omega), hj]
      by_cases h1 : j.toNat + 1 ≤ i ∧ i < j.toNat + 1 + bs.length
      · rw [if_pos h1, if_pos (by omega), show i - j.toNat = (i - (j.toNat + 1)) + 1 by omega]; simp
      · rw [if_neg h1, Memory.read?_write]
        by_cases hi : i = j.toNat
        · rw [if_pos hi, if_pos (by omega)]; simp [hi]
        · rw [if_neg hi, if_neg (by omega)]

/-- The bytes of an emitted word, and every other byte as before (R151). -/
theorem read?_emit (w : Word) (s : State) (h : s.ocnt.toNat + 4 ≤ 2 ^ 32) (i : Nat) :
    (emit w s).out.read? i =
      if s.ocnt.toNat ≤ i ∧ i < s.ocnt.toNat + 4 then (ser32 w)[i - s.ocnt.toNat]? else s.out.read? i := by
  rw [emit_out, read?_memWrites (ser32 w) s.ocnt s.out (by rw [length_ser32]; exact h) i, length_ser32]

/-- `OCNT` after an emitted word, while it does not wrap. -/
theorem ocnt_add_four {n : BitVec 32} (h : n.toNat + 4 < 2 ^ 32) : (n + 4#32).toNat = n.toNat + 4 := by
  rw [BitVec.toNat_add]; simp; omega

/-- What the host reads grows by the bytes of the emitted word. -/
theorem outBytes_emit (w : Word) (s : State) (h : s.ocnt.toNat + 4 < 2 ^ 32) :
    (emit w s).outBytes = s.outBytes ++ (ser32 w).map some := by
  have hr := read?_emit w s (by omega)
  apply List.ext_getElem?
  intro i
  simp only [State.outBytes, emit_ocnt, ocnt_add_four h]
  by_cases h1 : i < s.ocnt.toNat
  · rw [List.getElem?_append_left (by simpa using h1)]
    simp only [List.getElem?_map, List.getElem?_range h1, List.getElem?_range (show i < s.ocnt.toNat + 4 by omega),
      Option.map_some]
    rw [hr, if_neg (by omega)]
  · rw [List.getElem?_append_right (by simpa using h1)]
    simp only [List.length_map, List.length_range, List.getElem?_map]
    by_cases h2 : i < s.ocnt.toNat + 4
    · rw [List.getElem?_range h2, Option.map_some, hr, if_pos (by omega)]
      have h3 : i - s.ocnt.toNat < (ser32 w).length := by simp; omega
      rw [List.getElem?_eq_getElem h3]; rfl
    · rw [List.getElem?_eq_none (by simpa using h2), List.getElem?_eq_none (by simp; omega)]; rfl

theorem wf_memWrites (bs : List Byte) (j : BitVec 32) {m : Memory} (h : m.wf) : (memWrites bs j m).wf := by
  induction bs generalizing j m with
  | nil => exact h
  | cons b bs ih => exact ih _ (Memory.wf_write h _ _)

theorem indices_memWrites (bs : List Byte) (j : BitVec 32) {m : Memory} (h : ∀ c ∈ m, c.1 < 2 ^ 32) :
    ∀ c ∈ memWrites bs j m, c.1 < 2 ^ 32 := by
  induction bs generalizing j m with
  | nil => exact h
  | cons b bs ih => exact ih _ (Memory.indices_write h j.isLt)

theorem isSome_memWrites (bs : List Byte) (j : BitVec 32) {m : Memory} {i : Nat} (h : (m.read? i).isSome) :
    ((memWrites bs j m).read? i).isSome := by
  induction bs generalizing j m with
  | nil => exact h
  | cons b bs ih => exact ih _ (Memory.isSome_write h)

/-- An emitted word keeps `OUT` written below `OCNT`, `OCNT` being a multiple of 4. -/
theorem written_emit (w : Word) (s : State) (h4 : s.ocnt.toNat % 4 = 0)
    (h : ∀ j, j < s.ocnt.toNat → (s.out.read? j).isSome) :
    ∀ j, j < (emit w s).ocnt.toNat → ((emit w s).out.read? j).isSome := by
  intro j hj
  by_cases hw : s.ocnt.toNat + 4 = 2 ^ 32
  · have : (s.ocnt + 4#32).toNat = 0 := by rw [BitVec.toNat_add]; simp [hw]
    simp only [emit_ocnt, this] at hj; omega
  · have hlt := s.ocnt.isLt
    have h5 : s.ocnt.toNat + 4 < 2 ^ 32 := by omega
    rw [emit_ocnt, ocnt_add_four h5] at hj
    rw [read?_emit w s (by omega)]
    split
    · rename_i hi
      have h3 : j - s.ocnt.toNat < (ser32 w).length := by simp; omega
      rw [List.getElem?_eq_getElem h3]; rfl
    · exact h j (by omega)

/-- An emitted word keeps `OCNT` a multiple of 4. -/
theorem words_emit (n : BitVec 32) (h : n.toNat % 4 = 0) : (n + 4#32).toNat % 4 = 0 := by
  rw [BitVec.toNat_add]; simp; omega

end Sys2Proof.Machine
end

