-- ==== Sys2Proof/Laws/Packer.lean ====
section
/-! SUPPORT. The text packer in terms of lists of bits: what appending bits does to the accumulator, and all that the byte
step's loop can do (`41_text_packer.md` R121, R128). -/

namespace Sys2Proof.Machine

theorem length_charBits (c : Byte) : (charBits c).length = 7 := rfl

/-- Appending a bit doubles the accumulator and adds the bit, in 20 bits (R121). -/
theorem toNat_appendBit (acc : BitVec 20) (b : Bool) : (appendBit acc b).toNat = (2 * acc.toNat + b.toNat) % 2 ^ 20 := by
  have h : (acc <<< 1) &&& (BitVec.ofBool b).setWidth 20 = 0#20 := by
    apply BitVec.eq_of_getLsbD_eq
    intro i hi
    rcases i with _ | i
    · simp
    · simp [BitVec.getLsbD_setWidth, BitVec.getLsbD_of_ge]
  rw [appendBit, ← BitVec.add_eq_or_of_and_eq_zero _ _ h, BitVec.toNat_add, BitVec.toNat_shiftLeft]
  cases b
  · simp [Nat.shiftLeft_eq, Nat.mul_comm]
  · simp [Nat.shiftLeft_eq, Nat.mul_comm]

/-- While there is room the accumulator keeps every bit held. -/
theorem toNat_appendBit_of_lt {acc : BitVec 20} {n : Nat} (b : Bool) (h : acc.toNat < 2 ^ n) (hn : n < 20) :
    (appendBit acc b).toNat = 2 * acc.toNat + b.toNat ∧ (appendBit acc b).toNat < 2 ^ (n + 1) := by
  have h1 : 2 ^ (n + 1) ≤ 2 ^ 20 := Nat.pow_le_pow_right (by omega) (by omega)
  have h2 : b.toNat ≤ 1 := by cases b <;> decide
  rw [toNat_appendBit, Nat.mod_eq_of_lt (by omega)]
  constructor
  · rfl
  · omega

/-- Several bits appended to an accumulator that has room for them. -/
theorem foldl_appendBit_lt (bs : List Bool) {acc : BitVec 20} {n : Nat} (h : acc.toNat < 2 ^ n)
    (hn : n + bs.length ≤ 20) : (bs.foldl appendBit acc).toNat < 2 ^ (n + bs.length) := by
  induction bs generalizing acc n with
  | nil => simpa using h
  | cons b bs ih =>
    simp only [List.length_cons] at hn
    rw [List.foldl_cons, List.length_cons, show n + (bs.length + 1) = (n + 1) + bs.length by omega]
    exact ih (toNat_appendBit_of_lt b h (by omega)).2 (by omega)

theorem fieldOf_lt (bs : List Bool) (h : bs.length ≤ 20) : (fieldOf bs).toNat < 2 ^ bs.length := by
  have := foldl_appendBit_lt bs (acc := 0#20) (n := 0) (by simp) (by omega)
  simpa [fieldOf] using this

theorem fieldOf_append (bs cs : List Bool) : fieldOf (bs ++ cs) = cs.foldl appendBit (fieldOf bs) := by
  simp [fieldOf, List.foldl_append]

theorem length_heldBits (s : State) : (heldBits s).length = s.nbits.toNat := by simp [heldBits]

/-- The top `n` bits down of an accumulator that holds `n` bits rebuild it. -/
theorem fieldOf_topBits (acc : BitVec 20) (n : Nat) (hn : n ≤ 20) (h : acc.toNat < 2 ^ n) :
    fieldOf ((List.range n).map (fun k => acc.getLsbD (n - 1 - k))) = acc := by
  induction n generalizing acc with
  | zero =>
    have : acc = 0#20 := BitVec.eq_of_toNat_eq (by simpa using h)
    subst this; rfl
  | succ n ih =>
    have hs : (acc >>> 1).toNat < 2 ^ n := by
      rw [BitVec.toNat_ushiftRight, Nat.shiftRight_eq_div_pow, pow_one]
      rw [pow_succ] at h; omega
    have hmap : (List.range (n + 1)).map (fun k => acc.getLsbD (n + 1 - 1 - k)) =
        (List.range n).map (fun k => (acc >>> 1).getLsbD (n - 1 - k)) ++ [acc.getLsbD 0] := by
      rw [List.range_succ, List.map_append]
      congr 1
      · apply List.map_congr_left
        intro k hk
        rw [List.mem_range] at hk
        rw [BitVec.getLsbD_ushiftRight]
        congr 1; omega
      · simp
    rw [hmap, fieldOf_append, ih _ (by omega) hs]
    apply BitVec.eq_of_toNat_eq
    rw [List.foldl_cons, List.foldl_nil, (toNat_appendBit_of_lt _ hs (by omega)).1, BitVec.toNat_ushiftRight]
    have h0 : (acc.getLsbD 0).toNat = acc.toNat % 2 := by
      rw [BitVec.getLsbD, Nat.testBit_zero]
      rcases Nat.mod_two_eq_zero_or_one acc.toNat with h | h <;> simp [h]
    rw [h0, Nat.shiftRight_eq_div_pow, pow_one]
    omega

theorem fieldOf_heldBits (s : State) (hn : s.nbits.toNat ≤ 19) (h : s.acc.toNat < 2 ^ s.nbits.toNat) :
    fieldOf (heldBits s) = s.acc := fieldOf_topBits s.acc _ (by omega) h

theorem toNat_nbits_add {n : BitVec 5} {k : Nat} (h : n.toNat + k < 32) : (n + BitVec.ofNat 5 k).toNat = n.toNat + k := by
  rw [BitVec.toNat_add, BitVec.toNat_ofNat]; omega

/-- The loop of the byte step while the field does not fill. -/
theorem foldl_packBit_room (bs : List Bool) (s : State) (h : s.nbits.toNat + bs.length < 20) :
    bs.foldl packBit s = { s with acc := bs.foldl appendBit s.acc, nbits := s.nbits + BitVec.ofNat 5 bs.length } := by
  induction bs generalizing s with
  | nil => simp
  | cons b bs ih =>
    simp only [List.length_cons] at h
    have hb : packBit s b = { s with acc := appendBit s.acc b, nbits := s.nbits + 1#5 } := by
      rw [packBit, if_neg (by omega)]
    have hn : (s.nbits + 1#5).toNat = s.nbits.toNat + 1 := toNat_nbits_add (k := 1) (by omega)
    rw [List.foldl_cons, hb, ih _ (by simp only [hn]; omega)]
    simp only [List.foldl_cons, List.length_cons]
    congr 1
    rw [BitVec.add_assoc]
    congr 1
    apply BitVec.eq_of_toNat_eq
    rw [BitVec.toNat_add]; simp; omega

/-- The loop of the byte step when the field fills: one codeword goes out and the rest of the bits start the next field. -/
theorem foldl_packBit_fill (bs : List Bool) (s : State) (hn : s.nbits.toNat ≤ 19) (h : 20 ≤ s.nbits.toNat + bs.length)
    (h2 : s.nbits.toNat + bs.length < 40) :
    bs.foldl packBit s =
      { emitField ((bs.take (20 - s.nbits.toNat)).foldl appendBit s.acc) s with
        acc := fieldOf (bs.drop (20 - s.nbits.toNat)), nbits := BitVec.ofNat 5 (s.nbits.toNat + bs.length - 20) } := by
  obtain ⟨k, hk⟩ : ∃ k, 20 - s.nbits.toNat = k + 1 := ⟨19 - s.nbits.toNat, by omega⟩
  have hlen : k < bs.length := by omega
  have hsplit : bs = bs.take k ++ bs[k] :: bs.drop (k + 1) := by simp
  have htake : bs.take (k + 1) = bs.take k ++ [bs[k]] := by simp
  have hroom := foldl_packBit_room (bs.take k) s (by rw [List.length_take]; omega)
  have hnb : (s.nbits + BitVec.ofNat 5 (bs.take k).length).toNat = 19 := by
    rw [toNat_nbits_add (by rw [List.length_take]; omega), List.length_take]; omega
  rw [hk]
  conv_lhs => rw [hsplit, List.foldl_append, List.foldl_cons, hroom]
  rw [packBit, if_pos (by simp only [hnb])]
  have hlast := foldl_packBit_room (bs.drop (k + 1))
    (emitField (appendBit ((bs.take k).foldl appendBit s.acc) bs[k])
      { s with acc := (bs.take k).foldl appendBit s.acc, nbits := s.nbits + BitVec.ofNat 5 (bs.take k).length })
    (by simp only [emitField_nbits, List.length_drop]; simp; omega)
  rw [hlast, htake, List.foldl_append, List.foldl_cons, List.foldl_nil]
  simp only [emitField_nbits, emitField_acc, List.length_drop, fieldOf]
  rw [show s.nbits.toNat + bs.length - 20 = bs.length - (k + 1) by omega, BitVec.zero_add]
  rfl

/-- What the loop of the byte step leaves alone, in every state (R128). -/
theorem foldl_packBit_frame (bs : List Bool) (s : State) :
    (bs.foldl packBit s).ph = s.ph ∧ (bs.foldl packBit s).op = s.op ∧ (bs.foldl packBit s).a = s.a ∧
    (bs.foldl packBit s).mlen = s.mlen ∧ (bs.foldl packBit s).cidx = s.cidx ∧ (bs.foldl packBit s).pcnt = s.pcnt ∧
    (bs.foldl packBit s).padn = s.padn ∧ (bs.foldl packBit s).r0 = s.r0 ∧ (bs.foldl packBit s).r1 = s.r1 ∧
    (bs.foldl packBit s).done = s.done ∧ (bs.foldl packBit s).msg = s.msg ∧ (bs.foldl packBit s).host = s.host := by
  induction bs generalizing s with
  | nil => simp
  | cons b bs ih =>
    have hb : (packBit s b).ph = s.ph ∧ (packBit s b).op = s.op ∧ (packBit s b).a = s.a ∧ (packBit s b).mlen = s.mlen ∧
        (packBit s b).cidx = s.cidx ∧ (packBit s b).pcnt = s.pcnt ∧ (packBit s b).padn = s.padn ∧
        (packBit s b).r0 = s.r0 ∧ (packBit s b).r1 = s.r1 ∧ (packBit s b).done = s.done ∧ (packBit s b).msg = s.msg ∧
        (packBit s b).host = s.host := by
      unfold packBit
      split <;> simp
    have h := ih (packBit s b)
    simp only [hb] at h
    exact h

/-- The batch boundary decides `PH` alone (R128, R129). -/
theorem enterSyncAtBoundary_eq (s : State) :
    enterSyncAtBoundary s = { s with ph := if s.wpos.toNat = 16 then .msync else s.ph } := rfl

/-- The byte step while the field does not fill (R128). -/
theorem byteStep_room (s : State) (hn : s.nbits.toNat + 7 < 20) (hw : s.wpos.toNat ≠ 16) :
    byteStep s = { s with
      acc := (charBits (memRead s s.cidx)).foldl appendBit s.acc, nbits := s.nbits + 7#5, cidx := s.cidx + 1 } := by
  rw [byteStep, foldl_packBit_room _ _ (by rw [length_charBits]; omega), enterSyncAtBoundary_eq,
    if_neg hw, length_charBits]

/-- The byte step when the field fills (R128): one message codeword. -/
theorem byteStep_fill (s : State) (hn : s.nbits.toNat ≤ 19) (h : 20 ≤ s.nbits.toNat + 7) :
    byteStep s =
      { emit (messageCodeword (((charBits (memRead s s.cidx)).take (20 - s.nbits.toNat)).foldl appendBit s.acc)) s with
        gcnt := nextGroupCount s.gcnt, acc := fieldOf ((charBits (memRead s s.cidx)).drop (20 - s.nbits.toNat)),
        nbits := BitVec.ofNat 5 (s.nbits.toNat - 13), wpos := s.wpos + 1#5, cidx := s.cidx + 1,
        ph := if (s.wpos + 1#5).toNat = 16 then .msync else s.ph } := by
  rw [byteStep, foldl_packBit_fill _ _ hn (by rw [length_charBits]; omega) (by rw [length_charBits]; omega),
    length_charBits, show s.nbits.toNat + 7 - 20 = s.nbits.toNat - 13 by omega, enterSyncAtBoundary_eq]
  rfl

/-- The flush step (R129). -/
theorem flushStep_eq (s : State) :
    flushStep s =
      { emit (messageCodeword (s.acc <<< (20 - s.nbits.toNat))) s with
        gcnt := nextGroupCount s.gcnt, acc := 0#20, nbits := 0#5, wpos := s.wpos + 1#5,
        ph := if (s.wpos + 1#5).toNat = 16 then .msync else s.ph } := by
  rw [flushStep, enterSyncAtBoundary_eq]
  rfl

end Sys2Proof.Machine
end

