-- ==== Sys2Proof/Laws/Sequencer.lean ====
section
/-! SUPPORT. One lemma per phase: what the sequencer's step is, each citing the step rule; and what no step rule writes. -/

namespace Sys2Proof.Machine

variable {s : State}

theorem sequencerStep_idle (h : s.ph = .idle) : sequencerStep s = s := by rw [sequencerStep, h]

theorem sequencerStep_pre (h : s.ph = .pre) :
    sequencerStep s = { emit Config.preambleWord s with
      pcnt := s.pcnt + 1#5, ph := if s.pcnt.toNat + 1 = 18 then .sync0 else .pre } := by
  rw [sequencerStep, h]
  simp only [preStep, h]
  rfl

theorem sequencerStep_sync0 (h : s.ph = .sync0) :
    sequencerStep s = { emit Config.sync s with gcnt := 1#5, ph := if s.padn = 0#3 then .addrW else .padPre } := by
  rw [sequencerStep, h]; rfl

theorem sequencerStep_padPre (h : s.ph = .padPre) :
    sequencerStep s = { emit Config.idle s with
      gcnt := nextGroupCount s.gcnt, wpos := s.wpos + 1#5, padn := s.padn - 1#3,
      ph := if s.padn - 1#3 = 0#3 then .addrW else .padPre } := by
  rw [sequencerStep, h]
  simp only [padPreStep, h]
  rfl

theorem sequencerStep_addrW (h : s.ph = .addrW) :
    sequencerStep s = { emit (addrCodeword Config.textDataFlag s.a) s with
      gcnt := nextGroupCount s.gcnt, wpos := s.wpos + 1#5, ph := .msg } := by
  rw [sequencerStep, h]; rfl

theorem sequencerStep_byte (h : s.ph = .msg) (hc : s.cidx.toNat < s.mlen.toNat) : sequencerStep s = byteStep s := by
  rw [sequencerStep, h]; simp only [msgStep, if_pos hc]

theorem sequencerStep_flush (h : s.ph = .msg) (hc : s.mlen.toNat ≤ s.cidx.toNat) (hn : 0 < s.nbits.toNat) :
    sequencerStep s = flushStep s := by
  rw [sequencerStep, h]; simp only [msgStep, if_neg (Nat.not_lt.2 hc), if_pos hn]

theorem sequencerStep_leave (h : s.ph = .msg) (hc : s.mlen.toNat ≤ s.cidx.toNat) (hn : s.nbits.toNat = 0) :
    sequencerStep s = leaveStep s := by
  rw [sequencerStep, h]; simp only [msgStep, if_neg (Nat.not_lt.2 hc), hn, Nat.lt_irrefl, if_false]

theorem sequencerStep_msync (h : s.ph = .msync) :
    sequencerStep s = { emit Config.sync s with gcnt := nextGroupCount s.gcnt, wpos := 0#5, ph := .msg } := by
  rw [sequencerStep, h]; rfl

theorem sequencerStep_tail (h : s.ph = .tail) :
    sequencerStep s = { emit Config.idle s with
      gcnt := nextGroupCount s.gcnt, wpos := s.wpos + 1#5, ph := .padPost } := by
  rw [sequencerStep, h]; rfl

theorem sequencerStep_finish (h : s.ph = .padPost) (hg : s.gcnt = 0#5) : sequencerStep s = complete s := by
  rw [sequencerStep, h]; simp only [padPostStep, if_pos hg]

theorem sequencerStep_padPost (h : s.ph = .padPost) (hg : s.gcnt ≠ 0#5) :
    sequencerStep s = { emit Config.idle s with gcnt := nextGroupCount s.gcnt, wpos := s.wpos + 1#5 } := by
  rw [sequencerStep, h]; simp only [padPostStep, if_neg hg]; rfl

/-- What no step rule writes, in every state (R22, R23, R31): `OP`, `A`, `MLEN`, `R0`, `R1`, the message memory, the host's
moves. -/
theorem sequencerStep_frame (s : State) :
    (sequencerStep s).op = s.op ∧ (sequencerStep s).a = s.a ∧ (sequencerStep s).mlen = s.mlen ∧
    (sequencerStep s).r0 = s.r0 ∧ (sequencerStep s).r1 = s.r1 ∧ (sequencerStep s).msg = s.msg ∧
    (sequencerStep s).host = s.host := by
  obtain ⟨-, h1, h2, h3, -, -, -, h4, h5, -, h6, h7⟩ := foldl_packBit_frame (charBits (memRead s s.cidx)) s
  unfold sequencerStep
  split
  case h_6 =>
    unfold msgStep
    split
    · unfold byteStep
      generalize (charBits (memRead s s.cidx)).foldl packBit s = t at *
      exact ⟨h1, h2, h3, h4, h5, h6, h7⟩
    · split
      · exact ⟨rfl, rfl, rfl, rfl, rfl, rfl, rfl⟩
      · unfold leaveStep
        split
        · exact ⟨rfl, rfl, rfl, rfl, rfl, rfl, rfl⟩
        · split <;> exact ⟨rfl, rfl, rfl, rfl, rfl, rfl, rfl⟩
  case h_9 => unfold padPostStep; split <;> exact ⟨rfl, rfl, rfl, rfl, rfl, rfl, rfl⟩
  all_goals exact ⟨rfl, rfl, rfl, rfl, rfl, rfl, rfl⟩

/-- `GCNT + 1`, modulo 17. -/
theorem toNat_nextGroupCount (v : BitVec 5) : (nextGroupCount v).toNat = (v.toNat + 1) % 17 := by
  rw [nextGroupCount, BitVec.toNat_ofNat, Config.groupWords]
  omega

end Sys2Proof.Machine
end

