-- ==== Sys2Proof/Laws/Invariant.lean ====
section
/-! SUPPORT. Every step rule of the sequencer keeps the invariant. -/

namespace Sys2Proof.Machine

theorem toNat_succ5 {n : BitVec 5} (h : n.toNat < 31) : (n + 1#5).toNat = n.toNat + 1 := by
  rw [BitVec.toNat_add]; simp; omega
theorem toNat_pred3 {n : BitVec 3} (h : n ≠ 0#3) : (n - 1#3).toNat = n.toNat - 1 ∧ 1 ≤ n.toNat := by
  revert n; decide

/-- A state whose stream is that of `emit w s` and whose message memory is that of `s` has fitting byte spaces. -/
theorem spacesFit_emit (w : Word) {s t : State} (hi : Inv s) (ho : t.out = (emit w s).out) (hc : t.ocnt = (emit w s).ocnt)
   (hm : t.msg = s.msg) : SpacesFit t := by
  obtain ⟨hb, _, hs⟩ := hi
  constructor
  · rw [ho]; exact wf_memWrites _ _ hs.out_canonical
  · rw [hm]; exact hs.msg_canonical
  · rw [ho]; exact indices_memWrites _ _ hs.out_indices
  · rw [hm]; exact hs.msg_indices
  · rw [ho, hc]; exact written_emit w s hb.ocnt_words hs.out_written

theorem toNat_padCount_le (a : BitVec 21) : (padCount a).toNat ≤ 6 := by
  unfold padCount frameBits
  generalize a.extractLsb' 0 2 = b
  revert b; decide

theorem toNat_ne_zero5 {n : BitVec 5} (h : n ≠ 0#5) : n.toNat ≠ 0 := fun h' => h (BitVec.eq_of_toNat_eq h')

/-- The step rules keep the invariant: the bounds of `10_state.md` R39, what the phase says of the working registers, and the
byte spaces. -/
theorem sequencerStep_inv (s : State) (hi : Inv s) : Inv (sequencerStep s) := by
  obtain ⟨⟨b1, b2, b3, b4, b5, b6, b7, b8, b9⟩, hf, hs⟩ := id hi
  have hpad := toNat_padCount_le s.a
  have e4 := toNat_nextGroupCount s.gcnt
  have em := words_emit s.ocnt b9
  unfold PhaseFacts at hf
  cases hp : s.ph <;> simp only [hp] at hf
  · rw [sequencerStep_idle hp]; exact hi
  · -- pre
    rw [sequencerStep_pre hp]
    obtain ⟨f1, f2, f3, f4, f5, f6, f7, f8, f9⟩ := hf
    have e := toNat_succ5 (n := s.pcnt) (by omega)
    by_cases hc : s.pcnt.toNat + 1 = 18
    · rw [if_pos hc]
      refine ⟨?_, ⟨f1, f2, f3, f4, f5, f6, f7, f8⟩, spacesFit_emit Config.preambleWord hi rfl rfl rfl⟩
      constructor <;> simp [*]
    · rw [if_neg hc]
      refine ⟨?_, ⟨f1, f2, f3, f4, f5, f6, f7, f8, ?_⟩, spacesFit_emit Config.preambleWord hi rfl rfl rfl⟩
      · constructor <;> simp [*]; omega
      · simp only [e]; omega
  · rw [sequencerStep_sync0 hp]
    obtain ⟨f1, f2, f3, f4, f5, f6, f7, f8⟩ := hf
    by_cases hc : s.padn = 0#3
    · rw [if_pos hc]
      refine ⟨?_, ⟨f1, f2, f3, f4, f5, ?_, hc, ?_⟩, spacesFit_emit Config.sync hi rfl rfl rfl⟩
      · constructor <;> simp [*]
      · simp [f6, ← f8, hc]
      · simp [f6]
    · rw [if_neg hc]
      refine ⟨?_, ⟨f1, f2, f3, f4, f5, ?_, hc, ?_⟩, spacesFit_emit Config.sync hi rfl rfl rfl⟩
      · constructor <;> simp [*]
      · simp [f6, ← f8]
      · simp [f6]
  · rw [sequencerStep_padPre hp]
    obtain ⟨f1, f2, f3, f4, f5, f6, f7, f8⟩ := hf
    have e1 := toNat_succ5 (n := s.wpos) (by omega)
    obtain ⟨e2, e3⟩ := toNat_pred3 f7
    by_cases hc : s.padn - 1#3 = 0#3
    · have hz' : s.padn.toNat - 1 = 0 := by rw [← e2, hc]; rfl
      rw [if_pos hc]
      refine ⟨?_, ⟨f1, f2, f3, f4, f5, ?_, hc, ?_⟩, spacesFit_emit Config.idle hi rfl rfl rfl⟩
      · constructor <;> simp [*] <;> omega
      · simp only [emit_a, e1]; omega
      · simp only [e4, e1]; omega
    · rw [if_neg hc]
      refine ⟨?_, ⟨f1, f2, f3, f4, f5, ?_, hc, ?_⟩, spacesFit_emit Config.idle hi rfl rfl rfl⟩
      · constructor <;> simp [*] <;> omega
      · simp only [emit_a, e1, e2]; omega
      · simp only [e4, e1]; omega
  · rw [sequencerStep_addrW hp]
    obtain ⟨f1, f2, f3, f4, f5, f6, f7, f8⟩ := hf
    have e1 := toNat_succ5 (n := s.wpos) (by omega)
    refine ⟨?_, ⟨f1, .inl f2, ?_, fun _ => ?_⟩, spacesFit_emit _ hi rfl rfl rfl⟩
    · constructor <;> simp [*] <;> omega
    · simp only [e1]; omega
    · simp only [e4, e1]; omega
  · -- msg
    obtain ⟨f1, f2, f3, f4⟩ := hf
    have e1 := toNat_succ5 (n := s.wpos) (by omega)
    by_cases hc : s.cidx.toNat < s.mlen.toNat
    · rw [sequencerStep_byte hp hc]
      have ec : (s.cidx + 1).toNat = s.cidx.toNat + 1 := by
        rw [BitVec.toNat_add]; have := s.mlen.isLt; simp [Config.lenW] at *; omega
      by_cases hr : s.nbits.toNat + 7 < 20
      · rw [byteStep_room s hr (by omega)]
        have e7 : (s.nbits + 7#5).toNat = s.nbits.toNat + 7 := toNat_nbits_add (k := 7) (by omega)
        have ea := foldl_appendBit_lt (charBits (memRead s s.cidx)) b2 (by rw [length_charBits]; omega)
        rw [length_charBits] at ea
        refine ⟨?_, ?_, ⟨hs.1, hs.2, hs.3, hs.4, hs.5⟩⟩
        · constructor <;> simp only [e7, ec] <;> first | assumption | omega
        · simp only [PhaseFacts, hp]; exact ⟨f1, f2, f3, f4⟩
      · rw [byteStep_fill s b1 (by omega), e1]
        have e7 : (BitVec.ofNat 5 (s.nbits.toNat - 13)).toNat = s.nbits.toNat - 13 := by simp; omega
        have ea := fieldOf_lt ((charBits (memRead s s.cidx)).drop (20 - s.nbits.toNat))
          (by rw [List.length_drop, length_charBits]; omega)
        rw [List.length_drop, length_charBits, show 7 - (20 - s.nbits.toNat) = s.nbits.toNat - 13 by omega] at ea
        by_cases h16 : s.wpos.toNat + 1 = 16
        · rw [if_pos h16]
          refine ⟨?_, ⟨f1, f2, ?_, fun h => ?_⟩, spacesFit_emit _ hi rfl rfl rfl⟩
          · constructor <;> simp only [e7, e1, e4, emit_mlen, emit_padn, emit_pcnt, emit_ocnt] <;>
              first | assumption | omega | simp
          · simp only [e1]; exact h16
          · simp only [e4]; have := f4 h; omega
        · rw [if_neg h16]
          refine ⟨?_, ?_, spacesFit_emit _ hi rfl rfl rfl⟩
          · constructor <;> simp only [e7, e1, e4, emit_mlen, emit_padn, emit_pcnt, emit_ocnt] <;>
              first | assumption | omega
          · simp only [PhaseFacts, hp, e4, e1]; exact ⟨f1, f2, by omega, fun h => by have := f4 h; omega⟩
    · have hcm : s.cidx = s.mlen := BitVec.eq_of_toNat_eq (by have := b7 (by simp [hp]); omega)
      by_cases hn : 0 < s.nbits.toNat
      · rw [sequencerStep_flush hp (by omega) hn, flushStep_eq, e1]
        by_cases h16 : s.wpos.toNat + 1 = 16
        · rw [if_pos h16]
          refine ⟨?_, ⟨f1, f2, ?_, fun h => ?_⟩, spacesFit_emit _ hi rfl rfl rfl⟩
          · constructor <;> simp only [e1, e4, emit_mlen, emit_padn, emit_pcnt, emit_ocnt, emit_cidx] <;>
              first | assumption | omega | (intro _; omega) | exact (fun _ => Nat.le_of_eq (congrArg _ hcm)) | simp
          · simp only [e1]; exact h16
          · simp only [e4]; have := f4 h; omega
        · rw [if_neg h16]
          refine ⟨?_, ?_, spacesFit_emit _ hi rfl rfl rfl⟩
          · constructor <;> simp only [e1, e4, emit_mlen, emit_padn, emit_pcnt, emit_ocnt, emit_cidx] <;>
              first | assumption | omega | exact (fun _ => Nat.le_of_eq (congrArg _ hcm)) | simp
          · simp only [PhaseFacts, hp, e4, e1]; exact ⟨f1, f2, by omega, fun h => by have := f4 h; omega⟩
      · rw [sequencerStep_leave hp (by omega) (by omega), leaveStep]
        have hn0 : s.nbits = 0#5 := BitVec.eq_of_toNat_eq (by simp; omega)
        rcases f2 with h | h
        · rw [if_pos h]
          refine ⟨?_, ⟨f1, h, hn0, hcm, f3, f4 h⟩, ⟨hs.1, hs.2, hs.3, hs.4, hs.5⟩⟩
          constructor <;> first | assumption | (intro h; exfalso; revert h; simp; omega) | simp_all
        · rw [if_neg (by rw [h]; decide), if_pos h]
          refine ⟨?_, trivial, ⟨hs.1, hs.2, hs.3, hs.4, hs.5⟩⟩
          constructor <;> first | assumption | simp_all
  · rw [sequencerStep_msync hp]
    obtain ⟨f1, f2, f3, f4⟩ := hf
    refine ⟨?_, ⟨f1, f2, by simp, fun h => ?_⟩, spacesFit_emit _ hi rfl rfl rfl⟩
    · constructor <;> first | assumption | (simp only [e4]; omega) | exact fun _ => b7 (by simp [hp]) | simp
    · simp only [e4]; have := f4 h; simp; omega
  · rw [sequencerStep_tail hp]
    obtain ⟨f1, f2, f3, f4, f5, f6⟩ := hf
    have e1 := toNat_succ5 (n := s.wpos) (by omega)
    refine ⟨?_, ⟨f1, f2, f3, f4, ?_⟩, spacesFit_emit _ hi rfl rfl rfl⟩
    · constructor <;> simp only [e1, e4, emit_mlen, emit_padn, emit_pcnt, emit_ocnt, emit_cidx, emit_acc, emit_nbits] <;>
        first | assumption | omega | skip
      · intro h; right; left; refine ⟨by trivial, BitVec.eq_of_toNat_eq ?_⟩; rw [e4]; simp; omega
      · intro _; rw [f4]
    · simp only [e4, e1]; omega
  · obtain ⟨f1, f2, f3, f4, f5⟩ := hf
    by_cases hg : s.gcnt = 0#5
    · rw [sequencerStep_finish hp hg]
      refine ⟨?_, trivial, ⟨hs.1, hs.2, hs.3, hs.4, hs.5⟩⟩
      constructor <;> first | assumption | exact fun _ => .inr (.inr rfl) | exact fun h => absurd rfl h
    · rw [sequencerStep_padPost hp hg]
      have e5 := toNat_ne_zero5 hg
      have e1 := toNat_succ5 (n := s.wpos) (by omega)
      refine ⟨?_, ?_, spacesFit_emit _ hi rfl rfl rfl⟩
      · constructor <;> simp only [e1, e4, emit_mlen, emit_padn, emit_pcnt, emit_ocnt, emit_cidx, emit_acc, emit_nbits,
          emit_ph] <;>
        first | assumption | omega | skip
        · intro h; right; left; refine ⟨hp, BitVec.eq_of_toNat_eq ?_⟩; rw [e4]; simp; omega
      · simp only [PhaseFacts, hp, emit_ph, emit_nbits, emit_cidx, emit_mlen, e4, e1, emit_done, emit_op]
        exact ⟨f1, f2, f3, f4, by omega⟩

end Sys2Proof.Machine
end

