-- ==== Sys2Proof/Laws/PackText.lean ====
section
/-! SUPPORT. The function `PACK_TEXT` in terms of lists of bits, and the numbers along its loop (`41_text_packer.md` R121 to
R125). -/

namespace Sys2Proof.Machine

/-- Bits that do not fill the field (R121). -/
theorem foldl_bit_room (bs : List Bool) (p : Packing) (h : p.n + bs.length < 20) :
    bs.foldl Packing.bit p = { p with acc := bs.foldl appendBit p.acc, n := p.n + bs.length } := by
  induction bs generalizing p with
  | nil => simp
  | cons b bs ih =>
    simp only [List.length_cons] at h
    have hb : p.bit b = { p with acc := appendBit p.acc b, n := p.n + 1 } := by
      rw [Packing.bit, if_neg (by omega)]
    rw [List.foldl_cons, hb, ih _ (by simp only; omega)]
    simp only [List.foldl_cons, List.length_cons]
    congr 1; omega

/-- A message codeword, and the Sync it may call for (R122, R123). -/
theorem Packing.codeword_eq (p : Packing) (f : BitVec 20) : p.codeword f =
   { out := p.out ++ messageCodeword f :: (if p.wpos + 1 = 16 then [Config.sync] else []), acc := 0#20, n := 0,
     wpos := if p.wpos + 1 = 16 then 0 else p.wpos + 1 } := by
  unfold Packing.codeword Config.batchWords
  split <;> rfl

/-- Bits that fill the field once (R121, R122). -/
theorem foldl_bit_fill (bs : List Bool) (p : Packing) (hn : p.n ≤ 19) (h : 20 ≤ p.n + bs.length)
    (h2 : p.n + bs.length < 40) :
    bs.foldl Packing.bit p =
      { p.codeword ((bs.take (20 - p.n)).foldl appendBit p.acc) with
        acc := fieldOf (bs.drop (20 - p.n)), n := p.n + bs.length - 20 } := by
  obtain ⟨k, hk⟩ : ∃ k, 20 - p.n = k + 1 := ⟨19 - p.n, by omega⟩
  have hlen : k < bs.length := by omega
  have hsplit : bs = bs.take k ++ bs[k] :: bs.drop (k + 1) := by simp
  have htake : bs.take (k + 1) = bs.take k ++ [bs[k]] := by simp
  have hroom := foldl_bit_room (bs.take k) p (by rw [List.length_take]; omega)
  rw [hk]
  conv_lhs => rw [hsplit, List.foldl_append, List.foldl_cons, hroom]
  rw [Packing.bit, if_pos (by simp only [List.length_take]; omega)]
  rw [Packing.codeword_eq, foldl_bit_room _ _ (by simp only [List.length_drop]; omega), htake, List.foldl_append]
  simp only [List.length_drop, fieldOf, Packing.codeword_eq, List.foldl_cons, List.foldl_nil]
  congr 1
  omega

/-- The numbers of `PACK_TEXT` after whole characters, before the flush (R125). -/
theorem foldl_char_numbers (msg : List Byte) (w0 : Nat) (hw : w0 < 16) :
    let p := msg.foldl Packing.char { out := [], acc := 0#20, n := 0, wpos := w0 }
    p.n = 7 * msg.length % 20 ∧ p.wpos = (w0 + 7 * msg.length / 20) % 16 ∧
    p.out.length = 7 * msg.length / 20 + (w0 + 7 * msg.length / 20) / 16 ∧ p.acc.toNat < 2 ^ p.n := by
  induction msg using List.reverseRecOn with
  | nil => simp; omega
  | append_singleton msg c ih =>
    intro p
    set q := msg.foldl Packing.char { out := [], acc := 0#20, n := 0, wpos := w0 } with hq
    have hp : p = q.char c := by show List.foldl _ _ (msg ++ [c]) = _; rw [List.foldl_append]; rfl
    obtain ⟨i1, i2, i3, i4⟩ := ih
    have hl : (charBits c).length = 7 := length_charBits c
    rw [List.length_append, List.length_singleton]
    by_cases hr : q.n + 7 < 20
    · rw [hp, Packing.char, foldl_bit_room _ _ (by omega)]
      simp only [hl]
      have := foldl_appendBit_lt (charBits c) i4 (by omega)
      rw [hl] at this
      have hd : 7 * (msg.length + 1) / 20 = 7 * msg.length / 20 := by omega
      rw [hd]
      refine ⟨by omega, by omega, by omega, this⟩
    · rw [hp, Packing.char, foldl_bit_fill _ _ (by omega) (by omega) (by omega), Packing.codeword_eq]
      simp only [hl]
      have := fieldOf_lt ((charBits c).drop (20 - q.n)) (by rw [List.length_drop]; omega)
      rw [List.length_drop, hl] at this
      have hd : 7 * (msg.length + 1) / 20 = 7 * msg.length / 20 + 1 := by omega
      rw [hd]
      refine ⟨by omega, ?_, ?_, by rw [show q.n + 7 - 20 = 7 - (20 - q.n) by omega]; exact this⟩
      · split <;> omega
      · rw [List.length_append, List.length_cons]
        split
        · simp only [List.length_singleton]; omega
        · simp only [List.length_nil]; omega

end Sys2Proof.Machine
end

