-- ==== Sys2Proof/Laws/PerInstr.lean ====
section
/-! SUPPORT. Statements about every command as syntax, one lemma per constructor: the three fields of its command word. -/

namespace Sys2Proof

/-- A word of three fields `op ‖ 0 ‖ a`, bit by bit (`30_encoding.md` R71). -/
theorem getLsbD_fields (o : BitVec 3) (z : BitVec 8) (x : BitVec 21) (i : Nat) :
    BitVec.getLsbD (o ++ z ++ x : BitVec 32) i =
      if i < 21 then x.getLsbD i else if i < 29 then z.getLsbD (i - 21) else o.getLsbD (i - 29) := by
  rw [BitVec.getLsbD_append, BitVec.getLsbD_append]
  split
  · rfl
  · by_cases h : i < 29
    · rw [if_pos h, if_pos (by omega)]
    · rw [if_neg h, if_neg (by omega)]
      congr 1

theorem fieldOp_of_fields (o : BitVec 3) (z : BitVec 8) (x : BitVec 21) : fieldOp (o ++ z ++ x : BitVec 32) = o := by
  apply BitVec.eq_of_getLsbD_eq
  intro i hi
  rw [fieldOp, BitVec.getLsbD_extractLsb', getLsbD_fields, if_neg (by omega), if_neg (by omega)]
  simp [hi]

theorem fieldZero_of_fields (o : BitVec 3) (z : BitVec 8) (x : BitVec 21) : fieldZero (o ++ z ++ x : BitVec 32) = z := by
  apply BitVec.eq_of_getLsbD_eq
  intro i hi
  rw [fieldZero, BitVec.getLsbD_extractLsb', getLsbD_fields, if_neg (by omega), if_pos (by omega)]
  simp [hi]

theorem fieldA_of_fields (o : BitVec 3) (z : BitVec 8) (x : BitVec 21) : fieldA (o ++ z ++ x : BitVec 32) = x := by
  apply BitVec.eq_of_getLsbD_eq
  intro i hi
  rw [fieldA, BitVec.getLsbD_extractLsb', getLsbD_fields, if_pos (by omega)]
  simp [hi]

end Sys2Proof

namespace Sys2Proof.Laws.EncodedFields

/-- The command word of `i` holds its opcode in bits 31:29, zero in 28:21 and its operand in 20:0 (R71, R72, R73). -/
def Statement (i : Sys2Proof.Instr) : Prop :=
  Sys2Proof.fieldOp (Sys2Proof.encode i) = i.opcode ∧ Sys2Proof.fieldZero (Sys2Proof.encode i) = 0#8 ∧
    Sys2Proof.fieldA (Sys2Proof.encode i) = i.operand

theorem of_fields (i : Sys2Proof.Instr) : Statement i :=
  ⟨fieldOp_of_fields _ _ _, fieldZero_of_fields _ _ _, fieldA_of_fields _ _ _⟩

theorem cw (payload : BitVec 21) : Statement (.cw payload) := of_fields _

theorem pack (a : BitVec 21) : Statement (.pack a) := of_fields _

theorem addr (address : BitVec 21) : Statement (.addr address) := of_fields _

theorem enc (address : BitVec 21) : Statement (.enc address) := of_fields _

theorem len (address : BitVec 21) : Statement (.len address) := of_fields _

end Sys2Proof.Laws.EncodedFields
end

