-- ==== Sys2Proof/Tests/Slice0.lean ====
section
/-! SUPPORT. The model's own tests, with values from `95_test_vectors.md` and the rules' examples, and, for every statement
that has hypotheses, a witness: a concrete state and operands that meet all of them. -/

namespace Sys2Proof.Tests

open Sys2Proof Sys2Proof.Machine

/-! ## Helpers -/

/-- The outcome is a next state with property `p`. -/
def nextWith (o : Host.Outcome State Fault Refusal) (p : State → Bool) : Bool :=
  match o with
  | .next t => p t
  | .fault _ => false
  | .refused _ => false

/-- The message "ABC". -/
def abc : Memory := [(0, 0x41#8), (1, 0x42#8), (2, 0x43#8)]

/-- After reset the host has written `MLEN` and placed "ABC". -/
def loaded : State := { State.reset with mlen := 3#Config.lenW, msg := abc }

/-- A state of an `ENC 1, "ABC"` run, with nothing written to `OUT` yet. -/
def encAt (ph : Phase) (wpos gcnt : BitVec 5) : State :=
  { loaded with ph := ph, op := 4#3, a := 1#21, wpos := wpos, gcnt := gcnt }

/-- A state of a `PACK 15, "ABC"` run, with nothing written to `OUT` yet. -/
def packAt (ph : Phase) (wpos : BitVec 5) : State := { loaded with ph := ph, op := 2#3, a := 15#21, wpos := wpos }

/-- The bytes of `OUT` below `OCNT` are these. -/
def outIs (bs : List Byte) (t : State) : Bool := t.outBytes == bs.map some

/-! ## Decoding: words written out from R71 and R73 -/

theorem test_decode_cw : decode 0b001_00000000_000000000000000000011#32 = .ok (.cw 3#21) := rfl

theorem test_decode_pack : decode 0b010_00000000_000000000000000001111#32 = .ok (.pack 15#21) := rfl

theorem test_decode_addr : decode 0b011_00000000_100101101011010000111#32 = .ok (.addr 1234567#21) := rfl

theorem test_decode_enc : decode 0b100_00000000_000000000000000000001#32 = .ok (.enc 1#21) := rfl

theorem test_decode_len : decode 0b101_00000000_000000000000000000001#32 = .ok (.len 1#21) := rfl

theorem test_decode_reserved_opcodes :
    decode 0b000_00000000_000000000000000000000#32 = .error (.reservedOpcode 0#3) ∧
    decode 0b110_00000000_000000000000000000000#32 = .error (.reservedOpcode 6#3) ∧
    decode 0b111_00000000_000000000000000000000#32 = .error (.reservedOpcode 7#3) := ⟨rfl, rfl, rfl⟩

theorem test_decode_reserved_bits :
    decode 0b001_10000000_000000000000000000011#32 = .error (.reservedBits 128#8) ∧
    decode 0b001_00000001_000000000000000000011#32 = .error (.reservedBits 1#8) := ⟨rfl, rfl⟩

theorem test_decode_reserved_pack :
    decode 0b010_00000000_000000000000000010000#32 = .error (.packPositionTooWide 16#21) := rfl

theorem test_encode_words : encode (.addr 1234567#21) = 0x6012D687#32 ∧ encode (.len 1234567#21) = 0xA012D687#32 := by decide

/-! ## WellFormed: its one check refuses an ill-formed term (R72) -/

theorem test_wellFormed_refuses_wide_word_position :
    (Instr.pack 16#21).wellFormed = false ∧ (Instr.pack 0x100000#21).wellFormed = false := by decide

theorem test_wellFormed_accepts :
    (Instr.pack 15#21).wellFormed = true ∧ (Instr.cw 0x1FFFFF#21).wellFormed = true ∧
    (Instr.addr 0x1FFFFF#21).wellFormed = true ∧ (Instr.enc 0x1FFFFF#21).wellFormed = true ∧
    (Instr.len 0x1FFFFF#21).wellFormed = true := by decide

/-! ## Commands, one step each -/

/-- R104, the example `CW 3`. -/
theorem test_cw_example : nextWith (exec (.cw 3#21) loaded) (fun t =>
    t.r0 == 0x1DA5#32 && t.r1 == 0x2D2#32 && t.done && t.ocnt == 0#32 && !t.busy) = true := by decide +kernel

/-- `95_test_vectors.md` V2, the row that gives `SYNC`. -/
theorem test_cw_sync : nextWith (exec (.cw 0x0F9A42#21) loaded) (fun t => t.r0 == 0x7CD215D8#32 && t.r1 == 0x2EC#32) = true := by
  decide +kernel

/-- V5, address 1234567. -/
theorem test_addr_example : nextWith (exec (.addr 1234567#21) loaded) (fun t =>
    t.r0 == 0x4B5A1A25#32 && t.r1 == 6#32 && t.done) = true := by decide +kernel

/-- V5, the largest address and address bit 2. -/
theorem test_addr_corners :
    nextWith (exec (.addr 0x1FFFFF#21) loaded) (fun t => t.r0 == 0x7FFFF896#32 && t.r1 == 6#32) = true ∧
    nextWith (exec (.addr 4#21) loaded) (fun t => t.r0 == 0x1DA5#32 && t.r1 == 0#32) = true := by decide +kernel

/-- R181, the example `LEN 1, 3`. -/
theorem test_len_example : nextWith (exec (.len 1#21) loaded) (fun t => t.r0 == 35#32 && t.r1 == 140#32 && t.done) = true := by
  decide +kernel

/-- V6: 22 characters just fit a group of address 3, 23 do not; the largest output. -/
theorem test_len_corners :
    predictedWordCount 3#21 22 = 35 ∧ predictedWordCount 3#21 23 = 52 ∧ predictedWordCount 3#21 65535 = 24413 := by
  decide +kernel

/-- P4, the launch row. -/
theorem test_pack_launch : nextWith (exec (.pack 15#21) loaded) (fun t =>
    t.ph == .msg && t.wpos == 15#5 && t.op == 2#3 && t.a == 15#21 && !t.done) = true := by decide +kernel

/-- P4, step 3: the byte that fills the field and the batch. -/
theorem test_pack_byte_fills_batch :
    nextWith (step { packAt .msg 15#5 with cidx := 2#Config.lenW, nbits := 14#5, acc := 0x020A1#20 }) (fun t =>
      t.ph == .msync && t.wpos == 16#5 && t.gcnt == 1#5 && t.cidx == 3#Config.lenW && t.nbits == 1#5 && t.acc == 1#20 &&
        outIs [0xB8#8, 0x87#8, 0x43#8, 0xC1#8] t) = true := by decide +kernel

/-- P3, the launch row. -/
theorem test_enc_launch : nextWith (exec (.enc 1#21) loaded) (fun t =>
    t.ph == .pre && t.padn == 2#3 && t.pcnt == 0#5 && t.wpos == 0#5 && t.op == 4#3 && !t.done) = true := by decide +kernel

/-- P3, step 22: the address codeword. -/
theorem test_enc_address_step : nextWith (step (encAt .addrW 2#5 3#5)) (fun t =>
    t.ph == .msg && t.wpos == 3#5 && t.gcnt == 4#5 && outIs [0xA5#8, 0x1D#8, 0x00#8, 0x00#8] t) = true := by decide +kernel

/-- P3, steps 18 and 19: the last preamble word, the first Sync. -/
theorem test_preamble_and_sync_steps :
    nextWith (step { encAt .pre 0#5 0#5 with pcnt := 17#5, padn := 2#3 }) (fun t =>
      t.ph == .sync0 && t.pcnt == 18#5 && t.gcnt == 0#5 && outIs [0xAA#8, 0xAA#8, 0xAA#8, 0xAA#8] t) = true ∧
    nextWith (step { encAt .sync0 0#5 0#5 with padn := 2#3 }) (fun t =>
      t.ph == .padPre && t.gcnt == 1#5 && t.wpos == 0#5 && outIs [0xD8#8, 0x15#8, 0xD2#8, 0x7C#8] t) = true := by
  decide +kernel

/-- P3, steps 21, 28, 38, 39: padding before the address, the trailing Idle, the last padding Idle, the end. -/
theorem test_idle_steps :
    nextWith (step { encAt .padPre 1#5 2#5 with padn := 1#3 }) (fun t =>
      t.ph == .addrW && t.padn == 0#3 && t.wpos == 2#5 && t.gcnt == 3#5 && outIs [0x97#8, 0xC1#8, 0x89#8, 0x7A#8] t) = true ∧
    nextWith (step (encAt .tail 5#5 6#5)) (fun t => t.ph == .padPost && t.wpos == 6#5 && t.gcnt == 7#5) = true ∧
    nextWith (step (encAt .padPost 15#5 16#5)) (fun t => t.ph == .padPost && t.wpos == 16#5 && t.gcnt == 0#5) = true ∧
    nextWith (step (encAt .padPost 16#5 0#5)) (fun t => t.ph == .idle && t.done && t.ocnt == 0#32) = true := by
  decide +kernel

/-- P4, steps 4, 5, 6: the Sync, the flush, the leaving step. -/
theorem test_packer_steps :
    nextWith (step { packAt .msync 16#5 with gcnt := 1#5 }) (fun t =>
      t.ph == .msg && t.wpos == 0#5 && t.gcnt == 2#5 && outIs [0xD8#8, 0x15#8, 0xD2#8, 0x7C#8] t) = true ∧
    nextWith (step { packAt .msg 0#5 with cidx := 3#Config.lenW, nbits := 1#5, acc := 1#20 }) (fun t =>
      t.ph == .msg && t.wpos == 1#5 && t.nbits == 0#5 && t.acc == 0#20 && outIs [0xDC#8, 0x04#8, 0x00#8, 0xC0#8] t) = true ∧
    nextWith (step { packAt .msg 1#5 with cidx := 3#Config.lenW }) (fun t => t.ph == .idle && t.done) = true := by
  decide +kernel

/-- R125, the third example: a Sync at the very end. -/
theorem test_packText_ends_with_sync :
    packText 14 [0x41#8, 0x42#8, 0x43#8] = [0xC14387B8#32, 0xC00004DC#32, 0x7CD215D8#32] := by decide +kernel

/-- R213: the host has no move that changes the running command's message; R214: it may try to launch a second one. -/
theorem test_host_moves_while_busy :
    (step { packAt .msg 15#5 with host := [.placeMsg 2#Config.lenW 0x44#8] } = .refused .messageChangedWhileBusy) ∧
    nextWith (step { packAt .msg 15#5 with host := [.write .cmd 0x20000003#32] })
      (fun t => t == packAt .msg 15#5) = true := ⟨rfl, by decide +kernel⟩

/-! ## Witnesses: states that meet the invariant -/

theorem inv_of (s : State) (ho : s.out = []) (hc : s.ocnt = 0#32) (hm : s.msg = abc)
    (hb : s.nbits.toNat ≤ 19 ∧ s.acc.toNat < 2 ^ s.nbits.toNat ∧ s.wpos.toNat ≤ 16 ∧
      (s.wpos.toNat = 16 → s.ph = .msync ∨ (s.ph = .padPost ∧ s.gcnt = 0#5) ∨ s.ph = .idle) ∧
      s.padn.toNat ≤ 6 ∧ s.pcnt.toNat ≤ 18 ∧ s.cidx.toNat ≤ s.mlen.toNat ∧ s.gcnt.toNat ≤ 16)
    (hp : PhaseFacts s) : Inv s := by
  obtain ⟨h1, h2, h3, h4, h5, h6, h7, h8⟩ := hb
  refine ⟨⟨h1, h2, h3, h4, h5, h6, fun _ => h7, h8, by rw [hc]; rfl⟩, hp, ?_⟩
  constructor
  · rw [ho]; decide
  · rw [hm]; decide
  · rw [ho]; decide
  · rw [hm]; decide
  · rw [hc]; intro j hj; exact absurd hj (Nat.not_lt_zero j)

theorem inv_loaded : Inv loaded := inv_of _ rfl rfl rfl (by decide) trivial

/-- Preamble words 1 and 18. -/
theorem inv_pre :
    Inv { encAt .pre 0#5 0#5 with padn := 2#3 } ∧ Inv { encAt .pre 0#5 0#5 with padn := 2#3, pcnt := 17#5 } :=
  ⟨inv_of _ rfl rfl rfl (by decide) (by simp only [PhaseFacts, encAt]; decide),
    inv_of _ rfl rfl rfl (by decide) (by simp only [PhaseFacts, encAt]; decide)⟩

/-- With padding to come and, for address 0, with none. -/
theorem inv_sync0 : Inv { encAt .sync0 0#5 0#5 with padn := 2#3 } ∧ Inv { encAt .sync0 0#5 0#5 with a := 0#21 } :=
  ⟨inv_of _ rfl rfl rfl (by decide) (by simp only [PhaseFacts, encAt]; decide),
    inv_of _ rfl rfl rfl (by decide) (by simp only [PhaseFacts, encAt]; decide)⟩

/-- The first and the last Idle of the padding. -/
theorem inv_padPre : Inv { encAt .padPre 0#5 1#5 with padn := 2#3 } ∧ Inv { encAt .padPre 1#5 2#5 with padn := 1#3 } :=
  ⟨inv_of _ rfl rfl rfl (by decide) (by simp only [PhaseFacts, encAt]; decide),
    inv_of _ rfl rfl rfl (by decide) (by simp only [PhaseFacts, encAt]; decide)⟩

theorem inv_addrW : Inv (encAt .addrW 2#5 3#5) :=
  inv_of _ rfl rfl rfl (by decide) (by simp only [PhaseFacts, encAt]; decide)

/-- Byte steps that reach 19 bits, 20 bits, and 20 bits at the last word position of the batch. -/
theorem inv_byte :
    Inv { encAt .msg 3#5 4#5 with nbits := 12#5 } ∧ Inv { encAt .msg 3#5 4#5 with nbits := 13#5 } ∧
    Inv { packAt .msg 15#5 with nbits := 14#5, acc := 0x020A1#20, cidx := 2#Config.lenW } :=
  ⟨inv_of _ rfl rfl rfl (by decide) (by simp only [PhaseFacts, encAt]; decide),
    inv_of _ rfl rfl rfl (by decide) (by simp only [PhaseFacts, encAt]; decide),
    inv_of _ rfl rfl rfl (by decide) (by simp only [PhaseFacts, packAt]; decide)⟩

/-- Flush steps with 1 bit and with 19 bits, the second at the last word position of the batch. -/
theorem inv_flush :
    Inv { encAt .msg 4#5 5#5 with nbits := 1#5, acc := 1#20, cidx := 3#Config.lenW } ∧
    Inv { packAt .msg 15#5 with nbits := 19#5, acc := 0x7FFFF#20, cidx := 3#Config.lenW } :=
  ⟨inv_of _ rfl rfl rfl (by decide) (by simp only [PhaseFacts, encAt, loaded]; decide),
    inv_of _ rfl rfl rfl (by decide) (by simp only [PhaseFacts, packAt]; decide)⟩

/-- The leaving step of `ENC` and of `PACK`. -/
theorem inv_leave :
    Inv { encAt .msg 5#5 6#5 with cidx := 3#Config.lenW } ∧ Inv { packAt .msg 1#5 with cidx := 3#Config.lenW } :=
  ⟨inv_of _ rfl rfl rfl (by decide) (by simp only [PhaseFacts, encAt, loaded]; decide),
    inv_of _ rfl rfl rfl (by decide) (by simp only [PhaseFacts, packAt]; decide)⟩

theorem inv_msync :
    Inv { encAt .msync 16#5 0#5 with cidx := 3#Config.lenW } ∧ Inv { packAt .msync 16#5 with cidx := 3#Config.lenW } :=
  ⟨inv_of _ rfl rfl rfl (by decide) (by simp only [PhaseFacts, encAt, loaded]; decide),
    inv_of _ rfl rfl rfl (by decide) (by simp only [PhaseFacts, packAt]; decide)⟩

/-- The trailing Idle inside a batch and at its last word position. -/
theorem inv_tail :
    Inv { encAt .tail 5#5 6#5 with cidx := 3#Config.lenW } ∧ Inv { encAt .tail 15#5 16#5 with cidx := 3#Config.lenW } :=
  ⟨inv_of _ rfl rfl rfl (by decide) (by simp only [PhaseFacts, encAt, loaded]; decide),
    inv_of _ rfl rfl rfl (by decide) (by simp only [PhaseFacts, encAt, loaded]; decide)⟩

/-- The last padding Idle, and the step that ends the run. -/
theorem inv_padPost :
    Inv { encAt .padPost 15#5 16#5 with cidx := 3#Config.lenW } ∧ Inv { encAt .padPost 16#5 0#5 with cidx := 3#Config.lenW } :=
  ⟨inv_of _ rfl rfl rfl (by decide) (by simp only [PhaseFacts, encAt, loaded]; decide),
    inv_of _ rfl rfl rfl (by decide) (by simp only [PhaseFacts, encAt, loaded]; decide)⟩

/-! ## Witnesses: the hypotheses of each statement together -/

theorem witness_DecodeOfEncodeIsTheCommand :
    (Instr.pack 15#21).wellFormed = true ∧ (Instr.pack 0#21).wellFormed = true ∧ (Instr.enc 0x1FFFFF#21).wellFormed = true := by
  decide

theorem witness_EncodeOfDecodeIsTheWord : decode 0x601FFFFF#32 = .ok (.addr 0x1FFFFF#21) := rfl

/-- A matching row for each clause, with the operand at its greatest value; and a word that matches none. -/
theorem witness_MatchingRowLaunchesItsCommand :
    (∃ s : State, s.ph = .idle ∧ s.host = .write .cmd 0x20000003#32 :: []) ∧
    0x201FFFFF#32 &&& 0xFFE00000#32 = 0x20000000#32 ∧ 0x4000000F#32 &&& 0xFFFFFFF0#32 = 0x40000000#32 ∧
    0x601FFFFF#32 &&& 0xFFE00000#32 = 0x60000000#32 ∧ 0x801FFFFF#32 &&& 0xFFE00000#32 = 0x80000000#32 ∧
    0xA01FFFFF#32 &&& 0xFFE00000#32 = 0xA0000000#32 ∧
    opcodeRows.countP (rowMatches 0x4000000F#32) = 1 ∧ opcodeRows.countP (rowMatches 0x40000010#32) = 0 :=
  ⟨⟨{ loaded with host := [.write .cmd 0x20000003#32] }, rfl, rfl⟩, by decide⟩

/-- Each way to be reserved, at its boundary. -/
theorem witness_ReservedWordsAreIgnored :
    (∃ e, decode 0x1FFFFFFF#32 = .error e) ∧ (∃ e, decode 0xC0000000#32 = .error e) ∧ (∃ e, decode 0xE0000000#32 = .error e) ∧
    (∃ e, decode 0x20200000#32 = .error e) ∧ (∃ e, decode 0x30000000#32 = .error e) ∧ (∃ e, decode 0x40000010#32 = .error e) ∧
    (∃ e, decode 0x40100000#32 = .error e) ∧ ∃ s : State, s.host = .write .cmd 0x40000010#32 :: [.quiet] :=
  ⟨⟨_, rfl⟩, ⟨_, rfl⟩, ⟨_, rfl⟩, ⟨_, rfl⟩, ⟨_, rfl⟩, ⟨_, rfl⟩, ⟨_, rfl⟩,
    { loaded with host := [.write .cmd 0x40000010#32, .quiet] }, rfl⟩

theorem witness_CwLeavesCodewordAndCrc : loaded.ph = .idle := rfl

theorem witness_AddrLeavesCodewordAndPadding : loaded.ph = .idle := rfl

theorem witness_LenLeavesThePrediction : ({ loaded with mlen := 65535#Config.lenW } : State).ph = .idle := rfl

theorem witness_SequencerCommandsLaunch : loaded.ph = .idle := rfl

theorem witness_PackRunEmitsThePackedText : (Instr.pack 15#21).wellFormed = true ∧ loaded.ph = .idle := ⟨rfl, rfl⟩

theorem witness_EncRunEmitsTheTransmission : loaded.ph = .idle := rfl

/-- The last step count at which the core is still busy. -/
theorem witness_EncRunTakesTheCountedSteps : loaded.ph = .idle ∧ 38 < encStepCount 1#21 loaded.mlen.toNat := by decide

theorem witness_EncOutputHasThePredictedLength : loaded.ph = .idle := rfl

theorem witness_TransmissionIsWholeBatches : (0b11#2 : BitVec 2) ≠ 2#2 ∧ (0b01#2 : BitVec 2) ≠ 2#2 := by decide

theorem witness_TransmissionWordsAreDistinguishable :
    Config.sync ∈ (transmissionWords 3#2 1#21 []).drop 18 ∧ addrCodeword 3#2 1#21 ∈ (transmissionWords 3#2 1#21 []).drop 18 := by
  decide +kernel

theorem witness_PackedFieldsAreTheBitStream :
    15 < 16 ∧ 0xC100057F#32 ∈ packText 15 [0x41#8] ∧ (0xC100057F#32).getLsbD 31 = true := by decide +kernel

/-- A message codeword at the last word position, the Sync after it, and a word after the Sync (R125, the second example). -/
theorem witness_SyncClosesEveryFilledBatch :
    15 < 16 ∧ (packText 15 [0x41#8, 0x42#8, 0x43#8])[0]? = some 0xC14387B8#32 ∧
    (packText 15 [0x41#8, 0x42#8, 0x43#8])[1]? = some 0x7CD215D8#32 ∧
    (packText 15 [0x41#8, 0x42#8, 0x43#8])[2]? = some 0xC00004DC#32 := by decide +kernel

theorem witness_PackedTextCounts : 15 < 16 := by decide

theorem witness_HighBitOfACharacterIsIgnored : List.Forall₂ SameChar [0x41#8, 0x7F#8] [0xC1#8, 0xFF#8] :=
  .cons rfl (.cons rfl .nil)

/-- 12 bits held make 19, 13 make 20; the third state fills the batch as well. -/
theorem witness_ByteStepPacksOneCharacter :
    (∃ s : State, Inv s ∧ s.host = [] ∧ s.ph = .msg ∧ s.cidx.toNat < s.mlen.toNat ∧
      (heldBits s ++ charBits (memRead s s.cidx)).length = 19) ∧
    (∃ s : State, Inv s ∧ s.host = [] ∧ s.ph = .msg ∧ s.cidx.toNat < s.mlen.toNat ∧
      (heldBits s ++ charBits (memRead s s.cidx)).length = 20) ∧
    ∃ s : State, Inv s ∧ s.host = [] ∧ s.ph = .msg ∧ s.cidx.toNat < s.mlen.toNat ∧ s.wpos.toNat + 1 = 16 ∧
      (heldBits s ++ charBits (memRead s s.cidx)).length = 21 :=
  ⟨⟨_, inv_byte.1, rfl, rfl, by decide, rfl⟩, ⟨_, inv_byte.2.1, rfl, rfl, by decide, rfl⟩,
    ⟨_, inv_byte.2.2, rfl, rfl, by decide, rfl, rfl⟩⟩

theorem witness_PackerFlushLeaveAndSyncSteps :
    (∃ s : State, Inv s ∧ s.host = [] ∧ s.ph = .msg ∧ s.cidx = s.mlen ∧ s.nbits = 1#5) ∧
    (∃ s : State, Inv s ∧ s.host = [] ∧ s.ph = .msg ∧ s.cidx = s.mlen ∧ s.nbits = 19#5 ∧ s.wpos = 15#5) ∧
    (∃ s : State, Inv s ∧ s.host = [] ∧ s.ph = .msg ∧ s.cidx = s.mlen ∧ s.nbits = 0#5 ∧ s.op = 4#3) ∧
    (∃ s : State, Inv s ∧ s.host = [] ∧ s.ph = .msg ∧ s.cidx = s.mlen ∧ s.nbits = 0#5 ∧ s.op = 2#3) ∧
    ∃ s : State, Inv s ∧ s.host = [] ∧ s.ph = .msync :=
  ⟨⟨_, inv_flush.1, rfl, rfl, rfl, rfl⟩, ⟨_, inv_flush.2, rfl, rfl, rfl, rfl, rfl⟩, ⟨_, inv_leave.1, rfl, rfl, rfl, rfl, rfl⟩,
    ⟨_, inv_leave.2, rfl, rfl, rfl, rfl, rfl⟩, ⟨_, inv_msync.1, rfl, rfl⟩⟩

theorem witness_FrameSequencerSteps :
    (∃ s : State, Inv s ∧ s.host = [] ∧ s.ph = .sync0 ∧ s.padn = 2#3) ∧
    (∃ s : State, Inv s ∧ s.host = [] ∧ s.ph = .sync0 ∧ s.padn = 0#3) ∧
    (∃ s : State, Inv s ∧ s.host = [] ∧ s.ph = .addrW) ∧
    (∃ s : State, Inv s ∧ s.host = [] ∧ s.ph = .tail ∧ s.wpos = 15#5) ∧
    (∃ s : State, Inv s ∧ s.host = [] ∧ s.ph = .padPost ∧ s.gcnt = 16#5) ∧
    ∃ s : State, Inv s ∧ s.host = [] ∧ s.ph = .padPost ∧ s.gcnt = 0#5 :=
  ⟨⟨_, inv_sync0.1, rfl, rfl, rfl⟩, ⟨_, inv_sync0.2, rfl, rfl, rfl⟩, ⟨_, inv_addrW, rfl, rfl⟩, ⟨_, inv_tail.2, rfl, rfl, rfl⟩,
    ⟨_, inv_padPost.1, rfl, rfl, rfl⟩, ⟨_, inv_padPost.2, rfl, rfl, rfl⟩⟩

/-- The last preamble word, one Idle of the padding, and the step counts 17, 18, 20 and 21 of `ENC 1` after its launch. -/
theorem witness_PreambleAndPaddingPhases :
    (∃ s : State, s.host = [] ∧ s.ph = .pre ∧ s.pcnt = 17#5) ∧ (∃ s : State, s.host = [] ∧ s.ph = .padPre ∧ s.padn = 1#3) ∧
    loaded.ph = .idle ∧ (17 < 18 ∧ 17 ≤ 19 + (padCount 1#21).toNat) ∧ 18 ≤ 19 + (padCount 1#21).toNat ∧
    (20 ≤ 19 + (padCount 1#21).toNat ∧ 20 < 19 + (padCount 1#21).toNat) ∧ 21 ≤ 19 + (padCount 1#21).toNat :=
  ⟨⟨{ encAt .pre 0#5 0#5 with pcnt := 17#5 }, rfl, rfl, rfl⟩, ⟨{ encAt .padPre 1#5 2#5 with padn := 1#3 }, rfl, rfl, rfl⟩,
    by decide⟩

/-- Both edges of every phase that has two. -/
theorem witness_PhaseGraphEdges :
    (∃ s : State, Inv s ∧ s.host = [] ∧ s.ph = .idle) ∧
    (∃ s : State, Inv s ∧ s.host = [] ∧ s.ph = .pre ∧ s.pcnt.toNat + 1 < 18) ∧
    (∃ s : State, Inv s ∧ s.host = [] ∧ s.ph = .pre ∧ s.pcnt.toNat + 1 = 18) ∧
    (∃ s : State, Inv s ∧ s.host = [] ∧ s.ph = .padPre ∧ s.padn.toNat - 1 ≠ 0) ∧
    (∃ s : State, Inv s ∧ s.host = [] ∧ s.ph = .padPre ∧ s.padn.toNat - 1 = 0) ∧
    (∃ s : State, Inv s ∧ s.host = [] ∧ s.ph = .msg ∧ s.cidx ≠ s.mlen ∧ s.wpos = 3#5) ∧
    (∃ s : State, Inv s ∧ s.host = [] ∧ s.ph = .msg ∧ s.nbits ≠ 0#5 ∧ s.wpos = 15#5) ∧
    ∃ (s : State) (rest : List HostMove), (∃ e, decode 0xC0000000#32 = .error e) ∧
      s.host = .write .cmd 0xC0000000#32 :: rest ∧ s.ph = .idle :=
  ⟨⟨_, inv_loaded, rfl, rfl⟩, ⟨_, inv_pre.1, rfl, rfl, by decide⟩, ⟨_, inv_pre.2, rfl, rfl, rfl⟩,
    ⟨_, inv_padPre.1, rfl, rfl, by decide⟩, ⟨_, inv_padPre.2, rfl, rfl, rfl⟩, ⟨_, inv_byte.1, rfl, rfl, by decide, rfl⟩,
    ⟨_, inv_flush.2, rfl, rfl, by decide, rfl⟩,
    ⟨{ loaded with host := [.write .cmd 0xC0000000#32] }, [], ⟨_, rfl⟩, rfl, rfl⟩⟩

/-- The last four bytes of the stream's index space. -/
theorem witness_EmitIsLittleEndian :
    ({ loaded with ocnt := 0xFFFFFFFC#32 } : State).ocnt.toNat + 4 ≤ 2 ^ 32 ∧ 3 < 4 ∧
    0xFFFFFFFB < ({ loaded with ocnt := 0xFFFFFFFC#32 } : State).ocnt.toNat := by decide

theorem witness_OutputIsAppendOnly :
    (Inv (encAt .addrW 2#5 3#5) ∧ (encAt .addrW 2#5 3#5).ocnt.toNat + 4 < 2 ^ 32) ∧
    ∃ t, HostMove.reset ≠ .quiet ∧ HostMove.reset ≠ .awaitIdle ∧ hostMove .reset loaded = .next t :=
  ⟨⟨inv_addrW, by decide⟩, _, by decide, by decide, rfl⟩

/-- The two memories differ at indices 0 and 1, not at 2, which the step reads. -/
theorem witness_CoreReadsOnlyTheNextMessageByte :
    ({ packAt .msg 3#5 with cidx := 2#Config.lenW } : State).ph = .msg ∧ 2 < loaded.mlen.toNat ∧
    msgByte [(0, 0x58#8), (1, 0x59#8), (2, 0x43#8)] 2 = msgByte abc 2 := by decide

/-- A step of the sequencer and a move of the host. -/
theorem witness_EveryStepKeepsTheInvariant :
    (∃ t, Inv (encAt .addrW 2#5 3#5) ∧ step (encAt .addrW 2#5 3#5) = .next t) ∧
    ∃ t, Inv { loaded with host := [.placeMsg 3#Config.lenW 0x44#8] } ∧
      step { loaded with host := [.placeMsg 3#Config.lenW 0x44#8] } = .next t :=
  ⟨⟨_, inv_addrW, rfl⟩, _, inv_of _ rfl rfl rfl (by decide) trivial, rfl⟩

theorem witness_GroupCountTracksWordPosition :
    (∃ s : State, Inv s ∧ s.ph = .msync ∧ s.op = 4#3) ∧
    ∃ s t : State, Inv s ∧ s.host = [] ∧ s.op = 4#3 ∧ s.ph ≠ .idle ∧ s.ph ≠ .pre ∧ step s = .next t :=
  ⟨⟨_, inv_msync.1, rfl, rfl⟩, _, _, inv_tail.2, rfl, rfl, by decide, by decide, rfl⟩

/-- In the middle of a run. -/
theorem witness_ResetRestoresEveryRegister : ∃ s : State, s.ph = .msg ∧ s.host = .reset :: [.quiet] :=
  ⟨{ packAt .msg 15#5 with host := [.reset, .quiet] }, rfl, rfl⟩

theorem witness_WritesWhileBusyAreIgnored :
    (∃ s : State, s.ph ≠ .idle ∧ s.host = .write .cmd 0x20000003#32 :: []) ∧
    ∃ s : State, s.ph ≠ .idle ∧ s.host = .write .mlen 5#32 :: [] :=
  ⟨⟨{ packAt .msg 15#5 with host := [.write .cmd 0x20000003#32] }, by decide, rfl⟩,
    ⟨{ packAt .padPost 15#5 with host := [.write .mlen 5#32] }, by decide, rfl⟩⟩

theorem witness_HostRegisterAccess :
    (∃ s : State, s.host = .read .status :: []) ∧ (∃ s : State, s.ph = .idle ∧ s.host = .write .mlen 0xFFFF0003#32 :: []) ∧
    ∃ s : State, HostReg.status ≠ .cmd ∧ HostReg.status ≠ .mlen ∧ s.host = .write .status 3#32 :: [] :=
  ⟨⟨{ loaded with host := [.read .status] }, rfl⟩, ⟨{ loaded with host := [.write .mlen 0xFFFF0003#32] }, rfl, rfl⟩,
    ⟨{ loaded with host := [.write .status 3#32] }, by decide, by decide, rfl⟩⟩

/-- An idle state, a busy one, and a move that lets the core finish. -/
theorem witness_DoneIsWrittenAtLaunchAndEnd :
    loaded.ph = .idle ∧ (encAt .padPost 16#5 0#5).ph ≠ .idle ∧ ∃ t, hostMove .quiet (encAt .padPost 16#5 0#5) = .next t :=
  ⟨rfl, by decide, _, rfl⟩

theorem witness_CommandFrame : (∃ t, exec (.cw 3#21) loaded = .next t) ∧ (∃ t, exec (.pack 15#21) loaded = .next t) ∧
    (∃ t, exec (.addr 3#21) loaded = .next t) ∧ (∃ t, exec (.enc 3#21) loaded = .next t) ∧
    (∃ t, exec (.len 3#21) loaded = .next t) ∧ ∃ t, exec (.cw 3#21) (packAt .msg 15#5) = .next t :=
  ⟨⟨_, rfl⟩, ⟨_, rfl⟩, ⟨_, rfl⟩, ⟨_, rfl⟩, ⟨_, rfl⟩, _, rfl⟩

theorem witness_SequencerFrame :
    (∃ s : State, s.ph = .idle) ∧ (∃ s : State, s.ph = .pre) ∧ (∃ s : State, s.ph = .sync0) ∧ ∃ s : State, s.ph = .msg :=
  ⟨⟨loaded, rfl⟩, ⟨encAt .pre 0#5 0#5, rfl⟩, ⟨encAt .sync0 0#5 0#5, rfl⟩, encAt .msg 3#5 4#5, rfl⟩

/-- A fresh core and one with results and working registers of an earlier command. -/
theorem witness_ResultsDependOnlyOnTheMessage :
    ∃ t : State, t ≠ loaded ∧ (Instr.enc 1#21).wellFormed = true ∧ loaded.ph = .idle ∧ t.ph = .idle ∧ SameMessage loaded t :=
  ⟨{ loaded with r0 := 35#32, wpos := 16#5, pcnt := 18#5, cidx := 3#Config.lenW, done := true }, by decide, rfl, rfl, rfl, rfl,
    rfl⟩

theorem witness_StepRunsTheDecodedCommand :
    (∃ s : State, decode 0x80000001#32 = .ok (.enc 1#21) ∧ s.host = .write .cmd 0x80000001#32 :: []) ∧
    decodeTableWord 32 0x80000001 = some (.enc 1#21) :=
  ⟨⟨{ loaded with host := [.write .cmd 0x80000001#32] }, rfl, rfl⟩, rfl⟩

theorem witness_StepRunsTheSequencer :
    (encAt .tail 5#5 6#5).host = [] ∧ (∃ s : State, s.host = .quiet :: []) ∧ ∃ s : State, s.host = .awaitIdle :: [] :=
  ⟨rfl, ⟨{ loaded with host := [.quiet] }, rfl⟩, { encAt .tail 5#5 6#5 with host := [.awaitIdle] }, rfl⟩

theorem witness_EveryRunEnds : ∃ s : State, Inv s ∧ s.host = [] ∧ s.ph ≠ .idle := ⟨_, inv_pre.1, rfl, by decide⟩

theorem witness_IdleCoreWaits : loaded.host = [] ∧ loaded.ph = .idle := ⟨rfl, rfl⟩

theorem witness_HostMoveFrame :
    (∃ t, hostMove (.placeMsg 65535#Config.lenW 0x44#8) loaded = .next t) ∧ ∃ t, hostMove (.write .mlen 5#32) loaded = .next t :=
  ⟨⟨_, rfl⟩, _, rfl⟩

end Sys2Proof.Tests
end

namespace Sys2Proof.Machine

/-! ## The operations of the host port and of the launch (R32, R38, R210, R214) -/

section

variable {s : State}

theorem busy_iff : s.busy = true ↔ s.ph ≠ .idle := bne_iff_ne

theorem busy_eq_false_iff : s.busy = false ↔ s.ph = .idle := bne_eq_false_iff_eq

theorem whenIdle_of_idle (f : State → State) (h : s.ph = .idle) : whenIdle f s = .next (f s) := by
  rw [whenIdle, busy_eq_false_iff.2 h]; rfl

theorem whenIdle_of_busy (f : State → State) (h : s.ph ≠ .idle) : whenIdle f s = .next s := by
  rw [whenIdle, busy_iff.2 h]; rfl

/-- A command written while another runs is ignored (R214). -/
theorem exec_of_busy (i : Instr) (h : s.ph ≠ .idle) : exec i s = .next s := by
  cases i <;> simp only [exec, execCw, execPack, execAddr, execEnc, execLen, whenIdle_of_busy _ h]

theorem writeMlen_done (v : Word) : (writeMlen v s).done = s.done := by
  unfold writeMlen
  split <;> rfl

theorem placeMsg_done {t : State} {i : BitVec Config.lenW} {b : Byte} (h : placeMsg i b s = .next t) : t.done = s.done := by
  unfold placeMsg at h
  split at h
  · cases h
  · cases h; rfl

theorem step_of_move {m : HostMove} {rest : List HostMove} (h : s.host = m :: rest) :
    step s = hostMove m { s with host := rest } := by
  rw [step, advance, h]

theorem step_of_no_move (h : s.host = []) : step s = .next (sequencerStep s) := by
  rw [step, advance, h]

/-- With no move of the host, an idle core waits (R196, R217). -/
theorem step_of_idle (hh : s.host = []) (hp : s.ph = .idle) : step s = .next s := by
  rw [step_of_no_move hh, sequencerStep_idle hp]

/-- Reset sets `OCNT` to 0, so it leaves no byte of `OUT` defined (R210). -/
theorem outByte?_resetCore (j : Nat) : (resetCore s).outByte? j = none := if_neg (Nat.not_lt_zero j)

/-! ## Which steps of the sequencer write `DONE` (R32) -/

/-- A step of a running command completes it, or leaves it running and `DONE` as it is. -/
def CompletesOrKeepsDone (s t : State) : Prop := t = complete s ∨ t.ph ≠ .idle ∧ t.done = s.done

theorem enterSyncAtBoundary_ph_ne_idle (h : s.ph ≠ .idle) : (enterSyncAtBoundary s).ph ≠ .idle := by
  rw [enterSyncAtBoundary_eq]
  dsimp only
  split
  · decide
  · exact h

/-- The three steps of `PH_MSG`: only the leaving step of `PACK` completes (R128 to R130). -/
theorem msgStep_completesOrKeepsDone (h : s.ph ≠ .idle) : CompletesOrKeepsDone s (msgStep s) := by
  obtain ⟨hph, -, -, -, -, -, -, -, -, hdone, -, -⟩ := foldl_packBit_frame (charBits (memRead s s.cidx)) s
  unfold msgStep
  split
  · unfold byteStep
    generalize (charBits (memRead s s.cidx)).foldl packBit s = t at hph hdone
    exact .inr ⟨enterSyncAtBoundary_ph_ne_idle (hph.trans_ne h), hdone⟩
  · split
    · exact .inr ⟨enterSyncAtBoundary_ph_ne_idle h, rfl⟩
    · unfold leaveStep
      split
      · exact .inr ⟨nofun, rfl⟩
      · split
        · exact .inl rfl
        · exact .inr ⟨h, rfl⟩

/-- Besides the leaving step of `PACK`, only the last step of `PH_PADPOST` completes (R159, R160). -/
theorem sequencerStep_completesOrKeepsDone (h : s.ph ≠ .idle) : CompletesOrKeepsDone s (sequencerStep s) := by
  cases hp : s.ph with
  | idle => exact absurd hp h
  | pre =>
    rw [sequencerStep_pre hp]
    exact .inr ⟨by dsimp only; split <;> nofun, rfl⟩
  | sync0 =>
    rw [sequencerStep_sync0 hp]
    exact .inr ⟨by dsimp only; split <;> nofun, rfl⟩
  | padPre =>
    rw [sequencerStep_padPre hp]
    exact .inr ⟨by dsimp only; split <;> nofun, rfl⟩
  | addrW => rw [sequencerStep_addrW hp]; exact .inr ⟨nofun, rfl⟩
  | msg => rw [sequencerStep, hp]; exact msgStep_completesOrKeepsDone h
  | msync => rw [sequencerStep_msync hp]; exact .inr ⟨nofun, rfl⟩
  | tail => rw [sequencerStep_tail hp]; exact .inr ⟨nofun, rfl⟩
  | padPost =>
    by_cases hg : s.gcnt = 0#5
    · exact .inl (sequencerStep_finish hp hg)
    · rw [sequencerStep_padPost hp hg]
      exact .inr ⟨h, rfl⟩

theorem CompletesOrKeepsDone.done_eq {t : State} (h : CompletesOrKeepsDone s t) :
    t.done = if t.ph = .idle then true else s.done := by
  obtain rfl | ⟨hp, hd⟩ := h
  · rfl
  · rw [if_neg hp, hd]

/-! ## Which moves of the host write `DONE` (R32) -/

/-- A host write changes `DONE` only as the launch of a command. -/
theorem hostWrite_done {t : State} {r : HostReg} {v : Word} (h : hostWrite r v s = .next t) :
    t.done = s.done ∨ r = .cmd ∧ (∃ i, decode v = .ok i) ∧ s.ph = .idle := by
  cases r with
  | cmd =>
    change writeCmd v s = .next t at h
    cases hd : decode v with
    | error e =>
      rw [writeCmd, hd] at h
      cases h
      exact .inl rfl
    | ok i =>
      by_cases hp : s.ph = .idle
      · exact .inr ⟨rfl, ⟨i, rfl⟩, hp⟩
      · rw [writeCmd, hd] at h
        cases (exec_of_busy i hp).symm.trans h
        exact .inl rfl
  | mlen => cases h; exact .inl (writeMlen_done v)
  | status | r0 | r1 | ocnt => cases h; exact .inl rfl

/-- Only a reset, a step of a running command or a launch can write `DONE`. -/
theorem hostMove_done {m : HostMove} {t : State} (h : hostMove m s = .next t) :
    t.done = s.done ∨ m = .reset ∨ (m = .quiet ∧ s.ph ≠ .idle) ∨ (m = .awaitIdle ∧ s.ph ≠ .idle) ∨
      ∃ c i, m = .write .cmd c ∧ decode c = .ok i ∧ s.ph = .idle := by
  cases m with
  | write r v =>
    obtain hd | ⟨rfl, ⟨i, hi⟩, hp⟩ := hostWrite_done h
    · exact .inl hd
    · exact .inr (.inr (.inr (.inr ⟨v, i, rfl, hi, hp⟩)))
  | read r => cases h; exact .inl rfl
  | placeMsg i b => exact .inl (placeMsg_done h)
  | reset => exact .inr (.inl rfl)
  | quiet =>
    by_cases hp : s.ph = .idle
    · cases h
      exact .inl (by rw [sequencerStep_idle hp])
    · exact .inr (.inr (.inl ⟨rfl, hp⟩))
  | awaitIdle =>
    by_cases hp : s.ph = .idle
    · rw [hostMove, busy_eq_false_iff.2 hp] at h
      cases h
      exact .inl rfl
    · exact .inr (.inr (.inr (.inl ⟨rfl, hp⟩)))

end

/-! ## The statements -/

/-- Settles O41: `exec` is `complete` or `start` at a launch, a step of the sequencer completes the command or keeps `DONE`,
and of the host's moves only those that launch, let a running command step, or reset can write it. -/
theorem doneIsWrittenAtLaunchAndEnd : Obligations.DoneIsWrittenAtLaunchAndEnd := by
  refine ⟨fun _ => busy_iff, fun i s h => ?_, fun s h => (sequencerStep_completesOrKeepsDone h).done_eq,
    fun _ _ _ h => hostMove_done h⟩
  cases i with
  | cw | addr | len =>
    simp only [exec, execCw, execAddr, execLen, whenIdle_of_idle _ h]
    exact ⟨_, rfl, complete_done _⟩
  | pack | enc =>
    simp only [exec, execPack, execEnc, whenIdle_of_idle _ h]
    exact ⟨_, rfl, start_done _ _⟩

/-- Settles O38: the next state is `resetCore`, in which `OCNT` is 0 and `PH` is `PH_IDLE`. -/
theorem resetRestoresEveryRegister : Obligations.ResetRestoresEveryRegister :=
  ⟨fun _ _ h => ⟨_, step_of_move h, rfl, rfl, outByte?_resetCore, step_of_idle rfl rfl⟩, rfl⟩

end Sys2Proof.Machine

namespace Sys2Proof.Machine

/-! ## The word serialiser (R53, R151) -/

theorem getElem?_ser32 (w : Word) {k : Nat} (h : k < 4) : (ser32 w)[k]? = some (w.extractLsb' (8 * k) 8) :=
  match k, h with
  | 0, _ | 1, _ | 2, _ | 3, _ => rfl

theorem read?_emit_of_lt (w : Word) {s : State} (h : s.ocnt.toNat + 4 ≤ 2 ^ 32) {k : Nat} (hk : k < 4) :
    (emit w s).out.read? (s.ocnt.toNat + k) = some (w.extractLsb' (8 * k) 8) := by
  rw [read?_emit w s h, if_pos (by omega), Nat.add_sub_cancel_left, getElem?_ser32 w hk]

theorem read?_emit_of_outside (w : Word) {s : State} (h : s.ocnt.toNat + 4 ≤ 2 ^ 32) {j : Nat}
    (hj : j < s.ocnt.toNat ∨ s.ocnt.toNat + 4 ≤ j) : (emit w s).out.read? j = s.out.read? j := by
  rw [read?_emit w s h, if_neg (by omega)]

/-- Settles O32: the bytes at and around `OCNT` by `read?_emit`; the bytes of `ser32` and the registers by definition. -/
theorem emitIsLittleEndian : Obligations.EmitIsLittleEndian :=
  fun w _ h => ⟨rfl, fun _ => read?_emit_of_lt w h, fun _ => read?_emit_of_outside w h, rfl⟩

end Sys2Proof.Machine

namespace Sys2Proof.Machine

/-! ## The fields of a codeword (R78, R79, R103) -/

theorem getLsbD_assemble (p : BitVec 21) (i : Nat) :
    (assemble p).getLsbD i =
      if i = 0 then par31 (payloadCrc p (crc10 p))
      else if i < 11 then (crc10 p).getLsbD (i - 1)
      else p.getLsbD (i - 11) := by
  rw [assemble, getLsbD_withParity, getLsbD_payloadCrc]
  split
  · rfl
  · by_cases h : i < 11
    · rw [if_pos h, if_pos (by omega)]
    · rw [if_neg h, if_neg (by omega), Nat.sub_sub]

theorem getLsbD_assemble_of_le (p : BitVec 21) {i : Nat} (h : 11 ≤ i) : (assemble p).getLsbD i = p.getLsbD (i - 11) := by
  rw [getLsbD_assemble, if_neg (by omega), if_neg (by omega)]

/-- Bits of a codeword from bit 11 on are bits of its payload. -/
theorem extractLsb'_assemble_payload (p : BitVec 21) (n : Nat) : (assemble p).extractLsb' 11 n = p.extractLsb' 0 n := by
  apply BitVec.eq_of_getLsbD_eq
  intro i _
  simp only [BitVec.getLsbD_extractLsb', getLsbD_assemble_of_le p (Nat.le_add_right 11 i), Nat.add_sub_cancel_left, Nat.zero_add]

theorem extractLsb'_assemble (p : BitVec 21) : (assemble p).extractLsb' 11 21 = p := by
  rw [extractLsb'_assemble_payload, BitVec.extractLsb'_eq_self]

theorem extractLsb'_assemble_crc (p : BitVec 21) : (assemble p).extractLsb' 1 10 = crc10 p := by
  apply BitVec.eq_of_getLsbD_eq
  intro i hi
  rw [BitVec.getLsbD_extractLsb', getLsbD_assemble, if_neg (by omega), if_pos (by omega), Nat.add_sub_cancel_left]
  simp [hi]

/-- Settles O8: each field is read off `getLsbD_assemble`. -/
theorem codewordFieldLayout : Obligations.CodewordFieldLayout := fun p =>
  ⟨getLsbD_assemble_of_le p (by decide), extractLsb'_assemble_payload p 20, extractLsb'_assemble p,
    extractLsb'_assemble_crc p, getLsbD_assemble p 0⟩

/-! ## The kinds of words of a transmission (R88) -/

/-- A word that `PACK_TEXT` can append: a Sync or a message codeword (R122, R123). -/
def IsPackedWord (w : Word) : Prop := w = Config.sync ∨ ∃ field, w = messageCodeword field

theorem Packing.codeword_isPackedWord {p : Packing} (h : ∀ w ∈ p.out, IsPackedWord w) (field : BitVec 20) :
    ∀ w ∈ (p.codeword field).out, IsPackedWord w := by
  intro w hw
  rw [Packing.codeword_eq, List.mem_append, List.mem_cons] at hw
  rcases hw with hw | rfl | hw
  · exact h w hw
  · exact .inr ⟨field, rfl⟩
  · split at hw
    · exact .inl (List.mem_singleton.1 hw)
    · cases hw

theorem Packing.bit_isPackedWord {p : Packing} (h : ∀ w ∈ p.out, IsPackedWord w) (b : Bool) :
    ∀ w ∈ (p.bit b).out, IsPackedWord w := by
  unfold Packing.bit
  split
  · exact Packing.codeword_isPackedWord h _
  · exact h

theorem Packing.char_isPackedWord {p : Packing} (h : ∀ w ∈ p.out, IsPackedWord w) (c : Byte) :
    ∀ w ∈ (p.char c).out, IsPackedWord w :=
  List.foldlRecOn (charBits c) Packing.bit (motive := fun q => ∀ w ∈ q.out, IsPackedWord w) h
    fun _ hq b _ => Packing.bit_isPackedWord hq b

theorem Packing.flush_isPackedWord {p : Packing} (h : ∀ w ∈ p.out, IsPackedWord w) :
    ∀ w ∈ p.flush.out, IsPackedWord w := by
  unfold Packing.flush
  split
  · exact h
  · exact Packing.codeword_isPackedWord h _

theorem packText_isPackedWord (w0 : Nat) (msg : List Byte) : ∀ w ∈ packText w0 msg, IsPackedWord w :=
  Packing.flush_isPackedWord <|
    List.foldlRecOn msg Packing.char (motive := fun p => ∀ w ∈ p.out, IsPackedWord w) (List.forall_mem_nil _)
      fun _ hp c _ => Packing.char_isPackedWord hp c

/-- The sync region holds only the four kinds of words of R150 steps 2 to 7. -/
theorem mem_syncRegion {f : BitVec 2} {a : BitVec 21} {msg : List Byte} {w : Word} (h : w ∈ syncRegion f a msg) :
    w = Config.sync ∨ w = Config.idle ∨ w = addrCodeword f a ∨ ∃ field, w = messageCodeword field := by
  simp only [syncRegion, regionUnpadded, List.mem_append, List.mem_singleton, List.mem_replicate] at h
  rcases h with ((((hsync | ⟨-, hpad⟩) | haddr) | hpack) | htail) | ⟨-, hgroup⟩
  · exact .inl hsync
  · exact .inr (.inl hpad)
  · exact .inr (.inr (.inl haddr))
  · exact (packText_isPackedWord _ _ w hpack).imp_right fun hm => .inr (.inr hm)
  · exact .inr (.inl htail)
  · exact .inr (.inl hgroup)

theorem take_transmissionWords (f : BitVec 2) (a : BitVec 21) (msg : List Byte) :
    (transmissionWords f a msg).take 18 = List.replicate 18 Config.preambleWord :=
  List.take_left' List.length_replicate

theorem drop_transmissionWords (f : BitVec 2) (a : BitVec 21) (msg : List Byte) :
    (transmissionWords f a msg).drop 18 = syncRegion f a msg :=
  List.drop_left' List.length_replicate

/-- Bit 31 of a message codeword is the message flag 1 (R79, R81). -/
theorem getLsbD_messageCodeword_flag (field : BitVec 20) : (messageCodeword field).getLsbD 31 = true := by
  rw [messageCodeword, getLsbD_assemble_of_le _ (by decide), getLsbD_messagePayload]
  rfl

/-- Bit 31 of an address codeword is the message flag 0 (R79, R80). -/
theorem getLsbD_addrCodeword_flag (f : BitVec 2) (a : BitVec 21) : (addrCodeword f a).getLsbD 31 = false := by
  rw [addrCodeword, getLsbD_assemble_of_le _ (by decide), addrPayload, BitVec.getLsbD_append, BitVec.getLsbD_append]
  rfl

/-- Bit 11 of an address codeword is the low bit of its data flag (R80). -/
theorem getLsbD_addrCodeword_dataFlag (f : BitVec 2) (a : BitVec 21) :
    (addrCodeword f a).getLsbD 11 = f.getLsbD 0 := by
  rw [addrCodeword, getLsbD_assemble_of_le _ (by decide), addrPayload, BitVec.getLsbD_append]
  rfl

theorem ne_of_getLsbD_ne {v w : Word} (i : Nat) (h : v.getLsbD i ≠ w.getLsbD i) : v ≠ w :=
  fun e => h (congrArg (BitVec.getLsbD · i) e)

/-- The preamble word has odd parity, so it is no codeword (R88, R105). -/
theorem assemble_ne_preambleWord (p : BitVec 21) : assemble p ≠ Config.preambleWord := by
  intro h
  have hp : Config.preambleWord.extractLsb' 11 21 = p := h ▸ extractLsb'_assemble p
  rw [← hp] at h
  exact absurd h (by decide +kernel)

/-- Settles O22: the words by `mem_syncRegion`; bit 31 tells message codewords from the rest but the preamble word, bit 11
an address codeword from `SYNC` and `IDLE`, and no codeword is the preamble word. -/
theorem transmissionWordsAreDistinguishable : Obligations.TransmissionWordsAreDistinguishable := by
  refine ⟨fun a msg => ⟨take_transmissionWords _ a msg, fun w hw => ?_⟩, fun a => ?_, fun field a => ?_, by decide, by decide⟩
  · rw [drop_transmissionWords] at hw
    exact mem_syncRegion hw
  · have hdata := getLsbD_addrCodeword_dataFlag 3#2 a
    exact ⟨ne_of_getLsbD_ne 11 (hdata.trans_ne (by decide)), ne_of_getLsbD_ne 11 (hdata.trans_ne (by decide)),
      assemble_ne_preambleWord _⟩
  · have hflag := getLsbD_messageCodeword_flag field
    exact ⟨ne_of_getLsbD_ne 31 (hflag.trans_ne (by decide)), ne_of_getLsbD_ne 31 (hflag.trans_ne (by decide)),
      ne_of_getLsbD_ne 31 (hflag.trans_ne (by rw [getLsbD_addrCodeword_flag]; decide)), assemble_ne_preambleWord _⟩

end Sys2Proof.Machine

namespace Sys2Proof

/-! ## Command words as three fields (R71 to R74) -/

theorem eq_fields (c : Word) : c = fieldOp c ++ fieldZero c ++ fieldA c := by
  rw [fieldOp, fieldZero, fieldA, BitVec.extractLsb'_append_extractLsb'_eq_extractLsb' (by decide),
    BitVec.extractLsb'_append_extractLsb'_eq_extractLsb' (by decide), BitVec.extractLsb'_eq_self]

theorem fields_inj {o o' : BitVec 3} {z z' : BitVec 8} {x x' : BitVec 21} :
    (o ++ z ++ x : Word) = o' ++ z' ++ x' ↔ o = o' ∧ z = z' ∧ x = x' := by
  refine ⟨fun h => ⟨?_, ?_, ?_⟩, ?_⟩
  · simpa only [fieldOp_of_fields] using congrArg fieldOp h
  · simpa only [fieldZero_of_fields] using congrArg fieldZero h
  · simpa only [fieldA_of_fields] using congrArg fieldA h
  · rintro ⟨rfl, rfl, rfl⟩; rfl

/-- A mask acts on a command word field by field. -/
theorem and_fields (c : Word) (o : BitVec 3) (z : BitVec 8) (x : BitVec 21) :
    c &&& (o ++ z ++ x) = (fieldOp c &&& o) ++ (fieldZero c &&& z) ++ (fieldA c &&& x) := by
  conv_lhs => rw [eq_fields c]
  rw [BitVec.and_append, BitVec.and_append]

theorem and_positionMask_eq_zero_iff (a : BitVec 21) : a &&& 0x1FFFF0#21 = 0#21 ↔ a.extractLsb' 4 17 = 0#17 := by
  have hand : a &&& 0x1FFFF0#21 = a.extractLsb' 4 17 ++ 0#4 := by
    conv_lhs => rw [← BitVec.extractLsb'_append_extractLsb' (w := 17) (len := 4) (x := a)]
    rw [show 0x1FFFF0#21 = BitVec.allOnes 17 ++ 0#4 from rfl, BitVec.and_append, BitVec.and_allOnes, BitVec.and_zero]
  rw [hand]
  refine ⟨fun h => ?_, fun h => by rw [h]; rfl⟩
  exact BitVec.extractLsb'_append_eq_left.symm.trans (congrArg (BitVec.extractLsb' 4 17) h)

/-- What the decoder accepts, field by field (R73, R74). -/
theorem decode_eq_ok_iff {c : Word} {i : Instr} :
    decode c = .ok i ↔ fieldZero c = 0#8 ∧ fieldOp c = i.opcode ∧ fieldA c = i.operand ∧ i.wellFormed = true := by
  constructor
  · intro h
    unfold decode at h
    split at h
    · cases h
    · rename_i hz
      refine ⟨not_not.1 hz, ?_⟩
      split at h
      case h_2 hop =>
        split at h
        · rename_i hw
          cases h
          exact ⟨BitVec.eq_of_toNat_eq hop, rfl, beq_iff_eq.2 hw⟩
        · cases h
      case h_6 => cases h
      all_goals
        rename_i hop
        cases h
        exact ⟨BitVec.eq_of_toNat_eq hop, rfl, rfl⟩
  · rintro ⟨hz, hop, ha, hw⟩
    cases i with
    | pack a =>
      have hw : a.extractLsb' 4 17 = 0#17 := beq_iff_eq.1 hw
      simp [decode, hz, hop, ha, Instr.opcode, Instr.operand, hw]
    | cw | addr | enc | len => simp [decode, hz, hop, ha, Instr.opcode, Instr.operand]

/-! ## The rows of the opcode map (R73) -/

/-- A row whose mask leaves the operand free selects its command whatever the operand. -/
theorem and_opcodeMask_eq_iff {c : Word} {i : Instr} {o : BitVec 3} (ho : i.opcode = o) (ha : fieldA c = i.operand)
    (hw : i.wellFormed = true) : c &&& 0xFFE00000#32 = o ++ 0#8 ++ 0#21 ↔ decode c = .ok i := by
  rw [show 0xFFE00000#32 = BitVec.allOnes 3 ++ BitVec.allOnes 8 ++ 0#21 from rfl, and_fields, fields_inj, BitVec.and_allOnes,
    BitVec.and_allOnes, BitVec.and_zero, decode_eq_ok_iff, ho]
  constructor
  · rintro ⟨hop, hz, -⟩; exact ⟨hz, hop, ha, hw⟩
  · rintro ⟨hz, hop, -, -⟩; exact ⟨hop, hz, rfl⟩

variable (c : Word)

theorem cwRow_iff : c &&& 0xFFE00000#32 = 0x20000000#32 ↔ decode c = .ok (.cw (fieldA c)) :=
  and_opcodeMask_eq_iff (o := 1#3) rfl rfl rfl

theorem addrRow_iff : c &&& 0xFFE00000#32 = 0x60000000#32 ↔ decode c = .ok (.addr (fieldA c)) :=
  and_opcodeMask_eq_iff (o := 3#3) rfl rfl rfl

theorem encRow_iff : c &&& 0xFFE00000#32 = 0x80000000#32 ↔ decode c = .ok (.enc (fieldA c)) :=
  and_opcodeMask_eq_iff (o := 4#3) rfl rfl rfl

theorem lenRow_iff : c &&& 0xFFE00000#32 = 0xA0000000#32 ↔ decode c = .ok (.len (fieldA c)) :=
  and_opcodeMask_eq_iff (o := 5#3) rfl rfl rfl

/-- The row of `PACK` has a mask of its own, which asks for `a[20:4] = 0`. -/
theorem packRow_iff : c &&& 0xFFFFFFF0#32 = 0x40000000#32 ↔ decode c = .ok (.pack (fieldA c)) := by
  rw [show 0xFFFFFFF0#32 = BitVec.allOnes 3 ++ BitVec.allOnes 8 ++ 0x1FFFF0#21 from rfl,
    show 0x40000000#32 = 2#3 ++ 0#8 ++ 0#21 from rfl, and_fields, fields_inj, BitVec.and_allOnes,
    BitVec.and_allOnes, and_positionMask_eq_zero_iff, decode_eq_ok_iff]
  constructor
  · rintro ⟨hop, hz, hw⟩; exact ⟨hz, hop, rfl, beq_iff_eq.2 hw⟩
  · rintro ⟨hz, hop, -, hw⟩; exact ⟨hop, hz, beq_iff_eq.1 hw⟩

/-- Each row matches exactly the words that decode to its command. -/
theorem countP_rowMatches :
    opcodeRows.countP (rowMatches c) =
      [Instr.cw, Instr.pack, Instr.addr, Instr.enc, Instr.len].countP (fun k => decode c = .ok (k (fieldA c))) := by
  simp only [opcodeRows, List.countP_cons, List.countP_nil, rowMatches, beq_iff_eq, decide_eq_true_eq, cwRow_iff, packRow_iff,
    addrRow_iff, encRow_iff, lenRow_iff]

variable {c}

theorem countP_rowMatches_of_error {e : DecodeError} (h : decode c = .error e) : opcodeRows.countP (rowMatches c) = 0 := by
  rw [countP_rowMatches, h]
  rfl

theorem countP_rowMatches_of_ok {i : Instr} (h : decode c = .ok i) : opcodeRows.countP (rowMatches c) = 1 := by
  rw [countP_rowMatches, h]
  obtain ⟨-, -, ha, -⟩ := decode_eq_ok_iff.1 h
  rw [ha]
  cases i <;> simp [Instr.operand]

theorem countP_rowMatches_le_one (c : Word) : opcodeRows.countP (rowMatches c) ≤ 1 := by
  cases hd : decode c with
  | error e => exact (countP_rowMatches_of_error hd).trans_le zero_le_one
  | ok i => exact (countP_rowMatches_of_ok hd).le

/-- The reserved words are those that match no row (R74). -/
theorem countP_rowMatches_eq_zero_iff : opcodeRows.countP (rowMatches c) = 0 ↔ ∃ e, decode c = .error e := by
  refine ⟨fun h => ?_, fun ⟨_, he⟩ => countP_rowMatches_of_error he⟩
  cases hd : decode c with
  | error e => exact ⟨e, rfl⟩
  | ok i => cases (countP_rowMatches_of_ok hd).symm.trans h

theorem exists_decode_ok_of_countP_eq_one (h : opcodeRows.countP (rowMatches c) = 1) : ∃ i, decode c = .ok i := by
  cases hd : decode c with
  | error e => cases (countP_rowMatches_of_error hd).symm.trans h
  | ok i => exact ⟨i, rfl⟩

end Sys2Proof

namespace Sys2Proof.Machine

/-! ## The launch of a command (R73) -/

/-- The common part of every launch. -/
theorem exec_of_idle_common {s : State} (i : Instr) (h : s.ph = .idle) :
    ∃ t, exec i s = .next t ∧ t.op = i.opcode ∧ t.a = i.operand ∧ t.ocnt = 0#32 := by
  cases i <;> simp only [exec, execCw, execPack, execAddr, execEnc, execLen, whenIdle_of_idle _ h] <;>
    exact ⟨_, rfl, rfl, rfl, rfl⟩

/-- A write of a command word to `CMD` runs the command it decodes to. -/
theorem step_of_command {s : State} {c : Word} {rest : List HostMove} {i : Instr} (hs : s.host = .write .cmd c :: rest)
    (hd : decode c = .ok i) : step s = exec i { s with host := rest } := by
  rw [step_of_move hs, hostMove, hostWrite, writeCmd, hd]

/-- Settles O3: a row matches exactly when the decoder answers its command, and a decoded command is launched by `exec`. -/
theorem matchingRowLaunchesItsCommand : Obligations.MatchingRowLaunchesItsCommand := by
  intro c s rest hidle hs
  have hrun : ∀ i, decode c = .ok i → step s = exec i { s with host := rest } := fun _ => step_of_command hs
  refine ⟨countP_rowMatches_le_one c, countP_rowMatches_eq_zero_iff, fun h => hrun _ ((cwRow_iff c).1 h),
    fun h => hrun _ ((packRow_iff c).1 h), fun h => hrun _ ((addrRow_iff c).1 h), fun h => hrun _ ((encRow_iff c).1 h),
    fun h => hrun _ ((lenRow_iff c).1 h), fun hone => ?_⟩
  obtain ⟨i, hd⟩ := exists_decode_ok_of_countP_eq_one hone
  obtain ⟨-, hop, ha, -⟩ := decode_eq_ok_iff.1 hd
  obtain ⟨t, ht, hto, hta, htc⟩ := exec_of_idle_common (s := { s with host := rest }) i hidle
  exact ⟨t, (hrun i hd).trans ht, hto.trans hop.symm, hta.trans ha.symm, htc⟩

end Sys2Proof.Machine

namespace Sys2Proof.Machine

/-! ## The parity bit and `CW` (R102, R104) -/

/-- An XOR-fold flips its start value once for each set bit, so it ends flipped exactly when their number is odd. -/
theorem foldl_xor_eq_true_iff {α : Type} (f : α → Bool) (l : List α) (b : Bool) :
    l.foldl (fun q i => q ^^ f i) b = true ↔ (b.toNat + l.countP f) % 2 = 1 := by
  induction l generalizing b with
  | nil => cases b <;> simp
  | cons i l ih =>
    rw [List.foldl_cons, ih]
    cases hi : f i with
    | false => rw [Bool.xor_false, List.countP_cons_of_neg (by simp [hi])]
    | true =>
      rw [Bool.xor_true, List.countP_cons_of_pos hi]
      cases b <;> simp only [Bool.not_false, Bool.not_true, Bool.toNat_false, Bool.toNat_true] <;> omega

/-- Settles O7: `par31` is the XOR-fold over the 31 bit positions from `false`, and `popcount` counts the set ones. -/
theorem parityIsPopcountModTwo : Obligations.ParityIsPopcountModTwo := by
  intro v
  rw [par31, foldl_xor_eq_true_iff, Bool.toNat_false, Nat.zero_add, popcount]

/-- Settles O10: in an idle state `exec` is the launch, which `complete` ends in the phase it began in; the CRC field by
`extractLsb'_assemble_crc`. -/
theorem cwLeavesCodewordAndCrc : Obligations.CwLeavesCodewordAndCrc := by
  intro p s h
  refine ⟨?_, extractLsb'_assemble_crc p⟩
  rw [exec, execCw, whenIdle_of_idle _ h, complete, launch, ← h]

end Sys2Proof.Machine

namespace Sys2Proof.Machine

/-! ## Bit 7 of a message byte (R120) -/

theorem charBits_eq_map (c : Byte) : charBits c = (List.range 7).map (c.extractLsb' 0 7).getLsbD := by
  have hbit (i : Nat) (hi : i < 7) : (c.extractLsb' 0 7).getLsbD i = c.getLsbD i := by
    rw [BitVec.getLsbD_extractLsb', decide_eq_true hi, Bool.true_and, Nat.zero_add]
  rw [List.map_congr_left fun i hi => hbit i (List.mem_range.1 hi)]
  rfl

theorem SameChar.charBits_eq {c d : Byte} (h : SameChar c d) : charBits c = charBits d := by
  rw [charBits_eq_map, charBits_eq_map, h]

theorem foldl_char_congr {msg msg' : List Byte} (h : List.Forall₂ SameChar msg msg') (p : Packing) :
    msg.foldl Packing.char p = msg'.foldl Packing.char p := by
  induction h generalizing p with
  | nil => rfl
  | cons hc _ ih => rw [List.foldl_cons, List.foldl_cons, Packing.char, hc.charBits_eq, ← Packing.char, ih]

theorem packText_congr {msg msg' : List Byte} (h : List.Forall₂ SameChar msg msg') (w0 : Nat) :
    packText w0 msg = packText w0 msg' := by
  rw [packText, packing, foldl_char_congr h, ← packing, ← packText]

/-- A transmission reads the message through `PACK_TEXT` alone (R150). -/
theorem encodeTransmission_congr {msg msg' : List Byte} (h : ∀ w0, packText w0 msg = packText w0 msg') (f : BitVec 2)
    (a : BitVec 21) : encodeTransmission f a msg = encodeTransmission f a msg' := by
  simp only [encodeTransmission, transmissionWords, syncRegion, regionUnpadded, h]

/-- Settles O26: a character is packed as its low 7 bits, and a transmission reads the message through `PACK_TEXT`. -/
theorem highBitOfACharacterIsIgnored : Obligations.HighBitOfACharacterIsIgnored := fun _ _ h =>
  ⟨packText_congr h, encodeTransmission_congr (packText_congr h)⟩

/-! ## The steps of the packer's phases (R128 to R131) -/

section

variable {s : State}

/-- In `PH_MSG` the batch has room for a codeword. -/
theorem Inv.wpos_le_of_msg (hi : Inv s) (hp : s.ph = .msg) : s.wpos.toNat ≤ 15 := by
  have hf := hi.phase
  simp only [PhaseFacts, hp] at hf
  obtain ⟨-, -, hw, -⟩ := hf
  exact hw

/-- `PH_MSYNC` is entered only with the batch full (R131). -/
theorem Inv.wpos_eq_of_msync (hi : Inv s) (hp : s.ph = .msync) : s.wpos = 16#5 := by
  have hf := hi.phase
  simp only [PhaseFacts, hp] at hf
  obtain ⟨-, -, hw, -⟩ := hf
  exact BitVec.eq_of_toNat_eq hw

theorem Inv.toNat_wpos_succ_of_msg (hi : Inv s) (hp : s.ph = .msg) : (s.wpos + 1#5).toNat = s.wpos.toNat + 1 :=
  toNat_succ5 (Nat.lt_of_le_of_lt (hi.wpos_le_of_msg hp) (by decide))

/-- Bits appended to those held go into the accumulator as it stands (R121). -/
theorem Inv.fieldOf_heldBits_append (hi : Inv s) (bs : List Bool) :
    fieldOf (heldBits s ++ bs) = bs.foldl appendBit s.acc := by
  rw [fieldOf_append, fieldOf_heldBits s hi.bounds.nbits_le hi.bounds.acc_lt]

theorem length_heldBits_append_charBits (s : State) (c : Byte) :
    (heldBits s ++ charBits c).length = s.nbits.toNat + 7 := by
  rw [List.length_append, length_heldBits, length_charBits]

theorem take_heldBits_append {n : Nat} (h : s.nbits.toNat ≤ n) (bs : List Bool) :
    (heldBits s ++ bs).take n = heldBits s ++ bs.take (n - s.nbits.toNat) := by
  rw [List.take_append, length_heldBits, List.take_of_length_le ((length_heldBits s).trans_le h)]

theorem drop_heldBits_append {n : Nat} (h : s.nbits.toNat ≤ n) (bs : List Bool) :
    (heldBits s ++ bs).drop n = bs.drop (n - s.nbits.toNat) := by
  rw [List.drop_append, length_heldBits, List.drop_eq_nil_of_le ((length_heldBits s).trans_le h), List.nil_append]

/-- `ENC` leaves the packer for the trailing Idle (R130). -/
theorem leaveStep_enc (h : s.op = 4#3) : leaveStep s = { s with ph := .tail } := if_pos h

/-- `PACK` leaves the packer by completing (R130). -/
theorem leaveStep_pack (h : s.op = 2#3) : leaveStep s = complete s := by
  rw [leaveStep, if_neg (by rw [h]; decide), if_pos h]

end

/-- Settles O27: `byteStep_room` below 20 bits, `byteStep_fill` from 20 on, with the held bits read off the accumulator. -/
theorem byteStepPacksOneCharacter : Obligations.ByteStepPacksOneCharacter := by
  intro s hi hh hp hc
  dsimp only
  have hn := hi.bounds.nbits_le
  have hw := hi.wpos_le_of_msg hp
  rw [step_of_no_move hh, sequencerStep_byte hp hc, length_heldBits_append_charBits]
  split
  · have hcount : s.nbits + 7#5 = BitVec.ofNat 5 (s.nbits.toNat + 7) := by
      rw [BitVec.ofNat_add, BitVec.ofNat_toNat, BitVec.setWidth_eq]
    rw [byteStep_room s ‹_› (by omega), hi.fieldOf_heldBits_append, hcount]
    rfl
  · rw [byteStep_fill s hn (by omega), take_heldBits_append (by omega), drop_heldBits_append (by omega),
      hi.fieldOf_heldBits_append, hi.toNat_wpos_succ_of_msg hp, hp, Nat.add_sub_add_right s.nbits.toNat 7 13]
    rfl

/-- Settles O28: the flush step by `flushStep_eq`, the leaving step by its two cases of `OP`, the Sync by
`sequencerStep_msync`; the invariant gives the word position in both phases. -/
theorem packerFlushLeaveAndSyncSteps : Obligations.PackerFlushLeaveAndSyncSteps := by
  intro s hi hh
  rw [step_of_no_move hh]
  refine ⟨fun hp hc hn => ?flush, fun hp hc hn => ?leave, fun hp => ⟨hi.wpos_eq_of_msync hp, ?sync⟩⟩
  case flush =>
    rw [sequencerStep_flush hp (by rw [hc]) (Nat.pos_of_ne_zero (toNat_ne_zero5 hn)), flushStep_eq,
      hi.toNat_wpos_succ_of_msg hp, hp]
    rfl
  case leave =>
    rw [sequencerStep_leave hp (by rw [hc]) (by rw [hn]; rfl)]
    exact ⟨fun ho => congrArg _ (leaveStep_enc ho), fun ho => congrArg _ (leaveStep_pack ho)⟩
  case sync =>
    rw [sequencerStep_msync hp]
    rfl

end Sys2Proof.Machine

namespace Sys2Proof.Machine

/-! ## The fields of an address (R140 to R142) -/

theorem toNat_frameBits (a : BitVec 21) : (frameBits a).toNat = a.toNat % 4 := BitVec.extractLsb'_toNat 0 2 a

theorem toNat_addressHigh (a : BitVec 21) : (addressHigh a).toNat = a.toNat / 8 := by
  rw [addressHigh, BitVec.extractLsb'_toNat, Nat.shiftRight_eq_div_pow]
  exact Nat.mod_eq_of_lt (Nat.div_lt_of_lt_mul a.isLt)

theorem toNat_padCount (a : BitVec 21) : (padCount a).toNat = a.toNat % 4 * 2 := by
  rw [padCount, BitVec.toNat_append, toNat_frameBits]
  exact (Nat.or_zero _).trans (Nat.shiftLeft_eq _ 1)

theorem toNat_addrPayload (f : BitVec 2) (a : BitVec 21) : (addrPayload f a).toNat = a.toNat / 8 * 4 + f.toNat := by
  have hhigh : (0#1 ++ addressHigh a).toNat = a.toNat / 8 := by
    rw [BitVec.toNat_append, toNat_addressHigh]
    exact Nat.zero_or _
  rw [addrPayload, BitVec.toNat_append, hhigh, ← Nat.shiftLeft_add_eq_or_of_lt f.isLt, Nat.shiftLeft_eq]

/-- The source's shift-and-or form: nothing is lost at the top, and the flag falls into the two bits that the shift clears. -/
theorem addrPayload_eq_or (f : BitVec 2) (a : BitVec 21) : addrPayload f a = ((a >>> 3) <<< 2) ||| f.setWidth 21 := by
  have hhigh : ((a >>> 3) <<< 2).toNat = (a.toNat / 8) <<< 2 := by
    rw [BitVec.toNat_shiftLeft, BitVec.toNat_ushiftRight, Nat.shiftRight_eq_div_pow, Nat.shiftLeft_eq]
    exact Nat.mod_eq_of_lt (by omega)
  apply BitVec.eq_of_toNat_eq
  rw [toNat_addrPayload, BitVec.toNat_or, hhigh, BitVec.toNat_setWidth_of_le (by decide),
    ← Nat.shiftLeft_add_eq_or_of_lt f.isLt, Nat.shiftLeft_eq]

/-- Bit 20 of an address payload is the message flag 0 (R80, R141). -/
theorem getLsbD_addrPayload_flag (f : BitVec 2) (a : BitVec 21) : (addrPayload f a).getLsbD 20 = false := by
  rw [← getLsbD_addrCodeword_flag f a, addrCodeword, getLsbD_assemble_of_le _ (by decide)]

/-- Settles O13: the two fields of the address as quotients and remainders, joined by disjoint shifts; the codeword by
definition. -/
theorem placeAddressArithmetic : Obligations.PlaceAddressArithmetic := fun f a =>
  ⟨toNat_padCount a, addrPayload_eq_or f a, toNat_addrPayload f a, getLsbD_addrPayload_flag f a, rfl⟩

/-! ## Address bit 2 (R144) -/

/-- Flipping bit 2 of an address leaves every field that does not hold it. -/
theorem extractLsb'_xor_four (a : BitVec 21) {i n : Nat} (h : (4#21).extractLsb' i n = 0#n) :
    (a ^^^ 4#21).extractLsb' i n = a.extractLsb' i n := by
  rw [BitVec.extractLsb'_xor, h, BitVec.xor_zero]

theorem padCount_xor_four (a : BitVec 21) : padCount (a ^^^ 4#21) = padCount a := by
  rw [padCount, frameBits, extractLsb'_xor_four a (by decide), ← frameBits, ← padCount]

theorem addrPayload_xor_four (f : BitVec 2) (a : BitVec 21) : addrPayload f (a ^^^ 4#21) = addrPayload f a := by
  rw [addrPayload, addressHigh, extractLsb'_xor_four a (by decide), ← addressHigh, ← addrPayload]

theorem placeAddress_xor_four (f : BitVec 2) (a : BitVec 21) : placeAddress f (a ^^^ 4#21) = placeAddress f a := by
  rw [placeAddress, addrCodeword, padCount_xor_four, addrPayload_xor_four, ← addrCodeword, ← placeAddress]

/-- A transmission reads the address through `PLACE_ADDRESS` alone (R150). -/
theorem encodeTransmission_congr_address {f : BitVec 2} {a b : BitVec 21} (h : placeAddress f a = placeAddress f b)
    (msg : List Byte) : encodeTransmission f a msg = encodeTransmission f b msg := by
  obtain ⟨hpad, hword⟩ := Prod.mk.inj h
  simp only [encodeTransmission, transmissionWords, syncRegion, regionUnpadded, hpad, hword]

/-- The frame has two bits, so there are four word positions for the address codeword. -/
theorem toNat_padCount_cases (a : BitVec 21) :
    (padCount a).toNat = 0 ∨ (padCount a).toNat = 2 ∨ (padCount a).toNat = 4 ∨ (padCount a).toNat = 6 := by
  rw [toNat_padCount]
  omega

/-- Settles O14: the frame and the high part are fields that do not hold bit 2, and everything else reads the address through
them. -/
theorem addressBitTwoIsUnused : Obligations.AddressBitTwoIsUnused := fun f a =>
  ⟨padCount_xor_four a, addrPayload_xor_four f a, placeAddress_xor_four f a,
    encodeTransmission_congr_address (placeAddress_xor_four f a), toNat_padCount_cases a⟩

/-! ## `ADDR` (R143) -/

/-- Settles O11: in an idle state `exec` is the launch, which `complete` ends in the phase it began in. -/
theorem addrLeavesCodewordAndPadding : Obligations.AddrLeavesCodewordAndPadding := by
  intro a s h
  rw [exec, execAddr, whenIdle_of_idle _ h, complete, launch, ← h, addrCodeword]

end Sys2Proof.Machine

namespace Sys2Proof.Machine

/-! ## The frame of a transmission: first Sync, address codeword, trailing Idle, batch padding (R154, R156, R158, R159) -/

section

variable {s : State}

/-- `PH_SYNC0` finds the sync region empty (R154). -/
theorem Inv.counters_of_sync0 (hi : Inv s) (hp : s.ph = .sync0) : s.gcnt = 0#5 ∧ s.wpos = 0#5 := by
  have hf := hi.phase
  simp only [PhaseFacts, hp] at hf
  obtain ⟨-, -, -, -, -, hw, hg, -⟩ := hf
  exact ⟨hg, hw⟩

/-- `PH_ADDRW` finds the padding emitted and the packer empty (R156). -/
theorem Inv.packer_of_addrW (hi : Inv s) (hp : s.ph = .addrW) :
    s.wpos.toNat = (padCount s.a).toNat ∧ s.acc = 0#20 ∧ s.nbits = 0#5 ∧ s.cidx = 0#Config.lenW := by
  have hf := hi.phase
  simp only [PhaseFacts, hp] at hf
  obtain ⟨-, -, hacc, hn, hc, hw, -, -⟩ := hf
  exact ⟨hw, hacc, hn, hc⟩

/-- In `PH_TAIL` the batch has room for the trailing Idle (R158). -/
theorem Inv.wpos_le_of_tail (hi : Inv s) (hp : s.ph = .tail) : s.wpos.toNat ≤ 15 := by
  have hf := hi.phase
  simp only [PhaseFacts, hp] at hf
  obtain ⟨-, -, -, -, hw, -⟩ := hf
  exact hw

/-- In `PH_PADPOST` the last group of 17 is whole exactly when the batch is full (R159): `GCNT = (WPOS + 1) mod 17`. -/
theorem Inv.gcnt_eq_zero_iff_of_padPost (hi : Inv s) (hp : s.ph = .padPost) : s.gcnt = 0#5 ↔ s.wpos = 16#5 := by
  have hf := hi.phase
  have hle := hi.bounds.wpos_le
  simp only [PhaseFacts, hp] at hf
  obtain ⟨-, -, -, -, hg⟩ := hf
  rw [← BitVec.toNat_inj, ← BitVec.toNat_inj, hg]
  simp only [BitVec.toNat_ofNat]
  omega

end

/-- Settles O29: each step by the lemma of its phase, what it finds by the invariant. -/
theorem frameSequencerSteps : Obligations.FrameSequencerSteps := by
  intro s hi hh
  rw [step_of_no_move hh]
  refine ⟨fun hp => ?sync0, fun hp => ?addrW, fun hp => ⟨hi.wpos_le_of_tail hp, ?tail⟩,
    fun hp => ⟨hi.gcnt_eq_zero_iff_of_padPost hp, fun hg => ?pad, fun hg => ?finish⟩⟩
  case sync0 =>
    obtain ⟨hg, hw⟩ := hi.counters_of_sync0 hp
    exact ⟨hg, hw, congrArg _ (sequencerStep_sync0 hp)⟩
  case addrW =>
    obtain ⟨hw, hacc, hn, hc⟩ := hi.packer_of_addrW hp
    exact ⟨hw, hacc, hn, hc, congrArg _ (sequencerStep_addrW hp)⟩
  case tail => exact congrArg _ (sequencerStep_tail hp)
  case pad => exact congrArg _ (sequencerStep_padPost hp hg)
  case finish => exact congrArg _ (sequencerStep_finish hp hg)

/-! ## A run without host moves after a launch -/

/-- The decoder gives a well-formed command back from its command word (R71 to R74). -/
theorem decode_encode_of_wellFormed {i : Instr} (h : i.wellFormed = true) : decode (encode i) = .ok i := by
  obtain ⟨hop, hz, ha⟩ := Laws.EncodedFields.of_fields i
  exact decode_eq_ok_iff.2 ⟨hz, hop, ha, h⟩

/-- Without a move of the host, a run is the sequencer's step iterated. -/
theorem runSteps_of_no_move (k : Nat) {s : State} (h : s.host = []) : runSteps k s = .next (sequencerStep^[k] s) := by
  induction k generalizing s with
  | zero => rfl
  | succ k ih =>
    obtain ⟨-, -, -, -, -, -, hhost⟩ := sequencerStep_frame s
    rw [runSteps, step_of_no_move h]
    exact ih (hhost.trans h)

/-- The run of a command: its launch, then the sequencer's steps. -/
theorem runSteps_commanded {i : Instr} {s l : State} (hw : i.wellFormed = true)
    (hl : exec i { s with host := [] } = .next l) (hh : l.host = []) (k : Nat) :
    runSteps (1 + k) (commanded (encode i) s) = .next (sequencerStep^[k] l) := by
  have hstep : step (commanded (encode i) s) = .next l :=
    (step_of_command rfl (decode_encode_of_wellFormed hw)).trans hl
  rw [Nat.add_comm, runSteps, hstep]
  exact runSteps_of_no_move k hh

/-- The launch of `ENC` (R152). -/
theorem exec_enc_of_idle (a : BitVec 21) {s : State} (h : s.ph = .idle) :
    exec (.enc a) s = .next { s with
      op := 4#3, a := a, ocnt := 0#32, acc := 0#20, nbits := 0#5, cidx := 0#Config.lenW, gcnt := 0#5, pcnt := 0#5,
      wpos := 0#5, padn := padCount a, done := false, ph := .pre } := by
  rw [exec, execEnc, whenIdle_of_idle _ h]
  rfl

/-! ## From the launch of `ENC` to its address codeword (R153 to R155) -/

/-- The state `k` steps after the launch of an `ENC` that owes `pad` Idle words: 18 steps of preamble, the first Sync, then
one step for each Idle. -/
inductive LeadIn (pad : BitVec 3) : Nat → State → Prop
  | pre {t : State} {k : Nat} : t.ph = .pre → t.pcnt.toNat = k → k < 18 → t.padn = pad → LeadIn pad k t
  | sync0 {t : State} : t.ph = .sync0 → t.pcnt.toNat = 18 → t.padn = pad → LeadIn pad 18 t
  | padPre {t : State} {k : Nat} : t.ph = .padPre → t.padn ≠ 0#3 → 19 ≤ k → t.padn.toNat + k = 19 + pad.toNat →
      LeadIn pad k t
  | addrW {t : State} : t.ph = .addrW → t.padn = 0#3 → LeadIn pad (19 + pad.toNat) t

/-- The last preamble word, the Sync when nothing is owed, and the last Idle owed are where the phase changes (R153 to R155). -/
theorem LeadIn.step {pad : BitVec 3} {k : Nat} {t : State} (h : LeadIn pad k t) (hk : k < 19 + pad.toNat) :
    LeadIn pad (k + 1) (sequencerStep t) := by
  cases h with
  | pre hp hc hlt hd =>
    have hsucc : (t.pcnt + 1#5).toNat = k + 1 := by rw [toNat_succ5 (by omega), hc]
    rw [sequencerStep_pre hp, hc]
    by_cases hlast : k + 1 = 18
    · rw [if_pos hlast, hlast]
      exact .sync0 rfl (hsucc.trans hlast) hd
    · rw [if_neg hlast]
      exact .pre rfl hsucc (by omega) hd
  | sync0 hp hc hd =>
    rw [sequencerStep_sync0 hp]
    by_cases hz : t.padn = 0#3
    · rw [if_pos hz, show 18 + 1 = 19 + pad.toNat by rw [← hd, hz]; rfl]
      exact .addrW rfl hz
    · rw [if_neg hz]
      exact .padPre rfl hz le_rfl (by rw [← hd]; exact Nat.add_comm _ _)
  | padPre hp hz hge hsum =>
    obtain ⟨hpred, hpos⟩ := toNat_pred3 hz
    rw [sequencerStep_padPre hp]
    by_cases hlast : t.padn - 1#3 = 0#3
    · have hone : t.padn.toNat - 1 = 0 := by rw [← hpred, hlast]; rfl
      rw [if_pos hlast, show k + 1 = 19 + pad.toNat by omega]
      exact .addrW rfl hlast
    · rw [if_neg hlast]
      exact .padPre rfl hlast (by omega) (by simp only [hpred]; omega)
  | addrW hp hz => exact absurd hk (Nat.lt_irrefl _)

theorem LeadIn.iterate {pad : BitVec 3} {l : State} (h : LeadIn pad 0 l) {k : Nat} (hk : k ≤ 19 + pad.toNat) :
    LeadIn pad k (sequencerStep^[k] l) := by
  induction k with
  | zero => exact h
  | succ k ih =>
    rw [Function.iterate_succ_apply']
    exact (ih (Nat.le_of_succ_le hk)).step hk

/-- What the step count says of the phase and of its counter. -/
theorem LeadIn.phase {pad : BitVec 3} {k : Nat} {t : State} (h : LeadIn pad k t) :
    if k < 18 then t.ph = .pre ∧ t.pcnt.toNat = k
    else if k = 18 then t.ph = .sync0 ∧ t.pcnt.toNat = 18
    else if k < 19 + pad.toNat then t.ph = .padPre ∧ t.padn.toNat = 19 + pad.toNat - k
    else t.ph = .addrW ∧ t.padn = 0#3 := by
  cases h with
  | pre hp hc hlt hd => rw [if_pos hlt]; exact ⟨hp, hc⟩
  | sync0 hp hc hd => exact ⟨hp, hc⟩
  | padPre hp hz hge hsum =>
    obtain ⟨-, hpos⟩ := toNat_pred3 hz
    rw [if_neg (by omega), if_neg (by omega), if_pos (by omega)]
    exact ⟨hp, by omega⟩
  | addrW hp hz =>
    rw [if_neg (by omega), if_neg (by omega), if_neg (Nat.lt_irrefl _)]
    exact ⟨hp, hz⟩

/-- Settles O30: the two steps by the lemmas of their phases; the run by `LeadIn`, which holds at the launch and which each
step carries on. -/
theorem preambleAndPaddingPhases : Obligations.PreambleAndPaddingPhases := by
  refine ⟨fun s hh hp => ?pre, fun s hh hp => ?padPre, fun a s k hidle hk => ?run⟩
  case pre => rw [step_of_no_move hh, sequencerStep_pre hp]
  case padPre => rw [step_of_no_move hh, sequencerStep_padPre hp]; rfl
  case run =>
    have hlaunch := exec_enc_of_idle a (s := { s with host := [] }) hidle
    refine ⟨_, runSteps_commanded rfl hlaunch rfl k, (LeadIn.iterate ?_ hk).phase⟩
    exact .pre rfl rfl (by decide) rfl

end Sys2Proof.Machine

namespace Sys2Proof.Machine

/-! ## The predicted word count (R180) -/

/-- The message words are the ceiling of `7n / 20`. -/
theorem messageWords_bounds (n : Nat) : 7 * n ≤ 20 * messageWords n ∧ 20 * messageWords n < 7 * n + 20 := by
  rw [messageWords]
  omega

theorem roundUpToBatch_mod (w : Nat) : roundUpToBatch w % 16 = 0 := Nat.mul_mod_right 16 _

/-- With `roundUpToBatch_mod`: the least multiple of 16 that is at least `w`. -/
theorem roundUpToBatch_bounds (w : Nat) : w ≤ roundUpToBatch w ∧ roundUpToBatch w < w + 16 := by
  simp only [roundUpToBatch, Config.batchWords]
  omega

/-- The prediction in terms of its parts: whole batches of the words that are no Syncs, a Sync for each batch, the preamble. -/
theorem predictedWordCount_eq (a : BitVec 21) (n : Nat) :
    predictedWordCount a n = roundUpToBatch ((padCount a).toNat + 1 + messageWords n + 1) +
      roundUpToBatch ((padCount a).toNat + 1 + messageWords n + 1) / 16 + 18 := rfl

/-- Address codeword and trailing Idle alone need one whole batch, its Sync and the preamble. -/
theorem le_predictedWordCount (a : BitVec 21) (n : Nat) : 35 ≤ predictedWordCount a n := by
  have hmod := roundUpToBatch_mod ((padCount a).toNat + 1 + messageWords n + 1)
  obtain ⟨hle, -⟩ := roundUpToBatch_bounds ((padCount a).toNat + 1 + messageWords n + 1)
  rw [predictedWordCount_eq]
  omega

/-- The largest prediction for `LEN_W = 16` (R182). -/
theorem predictedWordCount_le (a : BitVec 21) (n : BitVec Config.lenW) : predictedWordCount a n.toNat ≤ 24413 := by
  have hpad := toNat_padCount_le a
  have hn : n.toNat ≤ 65535 := Nat.le_of_lt_succ n.isLt
  obtain ⟨-, hm⟩ := messageWords_bounds n.toNat
  have hmod := roundUpToBatch_mod ((padCount a).toNat + 1 + messageWords n.toNat + 1)
  obtain ⟨-, hlt⟩ := roundUpToBatch_bounds ((padCount a).toNat + 1 + messageWords n.toNat + 1)
  rw [predictedWordCount_eq]
  omega

/-- Settles O15: the intermediate values are the model's own, each with its bounds. -/
theorem predictionArithmetic : Obligations.PredictionArithmetic := by
  intro a n
  obtain ⟨hmlo, hmhi⟩ := messageWords_bounds n
  obtain ⟨hwlo, hwhi⟩ := roundUpToBatch_bounds ((padCount a).toNat + 1 + messageWords n + 1)
  exact ⟨messageWords n, _, _, hmlo, hmhi, rfl, hwlo, hwhi, roundUpToBatch_mod _, predictedWordCount_eq a n,
    le_predictedWordCount a n⟩

/-! ## `LEN` (R181) -/

/-- `LEN` in an idle state: the launch, which `complete` ends in the phase it began in. -/
theorem exec_len_of_idle (a : BitVec 21) {s : State} (h : s.ph = .idle) :
    exec (.len a) s = .next { s with
      op := 5#3, a := a, ocnt := 0#32, r0 := BitVec.ofNat 32 (predictedWordCount a s.mlen.toNat),
      r1 := BitVec.ofNat 32 (4 * predictedWordCount a s.mlen.toNat), done := true } := by
  rw [exec, execLen, whenIdle_of_idle _ h, complete, launch, ← h]

/-- Settles O12: both results are below 2^32 by `predictedWordCount_le`, so their 32-bit words hold them whole. -/
theorem lenLeavesThePrediction : Obligations.LenLeavesThePrediction := by
  intro a s h
  have hle := predictedWordCount_le a s.mlen
  refine ⟨_, _, exec_len_of_idle a h, ?words, ?bytes⟩
  case words => exact (BitVec.toNat_ofNat _ _).trans (Nat.mod_eq_of_lt (by omega))
  case bytes => exact (BitVec.toNat_ofNat _ _).trans (Nat.mod_eq_of_lt (by omega))

end Sys2Proof.Machine

namespace Sys2Proof.Machine

/-! ## Host writes while a command runs (R214) -/

section

variable {s : State}

/-- A decoded command is not launched, and a reserved word changes nothing at any time (R74). -/
theorem writeCmd_of_busy (v : Word) (h : s.ph ≠ .idle) : writeCmd v s = .next s := by
  rw [writeCmd]
  cases decode v with
  | ok i => exact exec_of_busy i h
  | error _ => rfl

theorem writeMlen_of_busy (v : Word) (h : s.ph ≠ .idle) : writeMlen v s = s :=
  if_pos (busy_iff.2 h)

/-- A register other than `CMD` and `MLEN` ignores a write at any time (R38). -/
theorem hostWrite_of_busy (r : HostReg) (v : Word) (h : s.ph ≠ .idle) : hostWrite r v s = .next s := by
  cases r with
  | cmd => exact writeCmd_of_busy v h
  | mlen => rw [hostWrite, writeMlen_of_busy v h]
  | status | r0 | r1 | ocnt => rfl

end

/-- Settles O39: the step is the write, taken off the host's list; the core it meets is still busy. -/
theorem writesWhileBusyAreIgnored : Obligations.WritesWhileBusyAreIgnored :=
  fun _ r v _ hbusy _ hhost => (step_of_move hhost).trans (hostWrite_of_busy r v hbusy)

end Sys2Proof.Machine

namespace Sys2Proof

/-! ## Command words and their commands (R71 to R74) -/

/-- Settles O1: the three fields of a command word are the opcode, zero and the operand, which is all the decoder reads. -/
theorem decodeOfEncodeIsTheCommand : Obligations.DecodeOfEncodeIsTheCommand :=
  fun _ hw => Machine.decode_encode_of_wellFormed hw

/-- Settles O2: a word is the concatenation of its three fields, and an accepted word has those of its command. -/
theorem encodeOfDecodeIsTheWord : Obligations.EncodeOfDecodeIsTheWord := by
  intro c i h
  obtain ⟨hz, hop, ha, hw⟩ := decode_eq_ok_iff.1 h
  refine ⟨hw, ?_⟩
  rw [encode, ← hop, ← hz, ← ha, ← eq_fields]

/-- Settles O5: each word is decoded by evaluation. -/
theorem writtenOutWordsDecode : Obligations.WrittenOutWordsDecode := ⟨rfl, rfl, rfl, rfl, rfl, rfl⟩

/-! ## Reserved words (R74) -/

theorem exists_decode_error_iff {c : Word} : (∃ e, decode c = .error e) ↔ ¬ ∃ i, decode c = .ok i := by
  cases decode c <;> simp

/-- The rows of the opcode map with their checks on the operand (R73). -/
theorem exists_decode_ok_iff {c : Word} :
    (∃ i, decode c = .ok i) ↔
      fieldZero c = 0#8 ∧ (fieldOp c = 1#3 ∨ (fieldOp c = 2#3 ∧ (fieldA c).extractLsb' 4 17 = 0#17) ∨ fieldOp c = 3#3 ∨
        fieldOp c = 4#3 ∨ fieldOp c = 5#3) := by
  simp only [decode_eq_ok_iff]
  constructor
  · rintro ⟨i, hz, hop, ha, hw⟩
    refine ⟨hz, ?_⟩
    cases i with
    | cw => exact .inl hop
    | pack a => exact .inr (.inl ⟨hop, ha ▸ beq_iff_eq.1 hw⟩)
    | addr => exact .inr (.inr (.inl hop))
    | enc => exact .inr (.inr (.inr (.inl hop)))
    | len => exact .inr (.inr (.inr (.inr hop)))
  · rintro ⟨hz, hop | ⟨hop, hw⟩ | hop | hop | hop⟩
    · exact ⟨.cw (fieldA c), hz, hop, rfl, rfl⟩
    · exact ⟨.pack (fieldA c), hz, hop, rfl, beq_iff_eq.2 hw⟩
    · exact ⟨.addr (fieldA c), hz, hop, rfl, rfl⟩
    · exact ⟨.enc (fieldA c), hz, hop, rfl, rfl⟩
    · exact ⟨.len (fieldA c), hz, hop, rfl, rfl⟩

/-- The bits of the operand that `PACK` asks to be 0, read off the command word. -/
theorem extractLsb'_fieldA (c : Word) : (fieldA c).extractLsb' 4 17 = c.extractLsb' 4 17 := by
  apply BitVec.eq_of_getLsbD_eq
  intro i hi
  simp only [fieldA, BitVec.getLsbD_extractLsb', Nat.zero_add, decide_eq_true hi, show 4 + i < 21 by omega, decide_true,
    Bool.true_and]

theorem opcode_cases (o : BitVec 3) :
    o = 0#3 ∨ o = 1#3 ∨ o = 2#3 ∨ o = 3#3 ∨ o = 4#3 ∨ o = 5#3 ∨ o = 6#3 ∨ o = 7#3 := by
  revert o; decide

theorem exists_decode_error_iff_fields {c : Word} :
    (∃ e, decode c = .error e) ↔
      fieldOp c = 0#3 ∨ fieldOp c = 6#3 ∨ fieldOp c = 7#3 ∨ fieldZero c ≠ 0#8 ∨
        (fieldOp c = 2#3 ∧ (fieldA c).extractLsb' 4 17 ≠ 0#17) := by
  rw [exists_decode_error_iff, exists_decode_ok_iff]
  rcases opcode_cases (fieldOp c) with h | h | h | h | h | h | h | h <;> simp [h]
  exact imp_iff_not_or

theorem step_of_reserved {s : Machine.State} {c : Word} {rest : List Machine.HostMove} (he : ∃ e, decode c = .error e)
    (hs : s.host = .write .cmd c :: rest) : Machine.step s = .next { s with host := rest } := by
  obtain ⟨e, he⟩ := he
  rw [Machine.step_of_move hs, Machine.hostMove, Machine.hostWrite, Machine.writeCmd, he]

/-- Settles O4: a word is reserved when it is in no row of the opcode map, and `writeCmd` answers the same state for it. -/
theorem reservedWordsAreIgnored : Obligations.ReservedWordsAreIgnored := by
  refine ⟨fun c => ?_, fun c s rest => step_of_reserved⟩
  rw [exists_decode_error_iff_fields, extractLsb'_fieldA]
  rfl

end Sys2Proof

namespace Sys2Proof.Machine

/-! ## Launches (R73, R126, R152) -/

section

variable {s t : State}

/-- The launch of `PACK` (R126). -/
theorem exec_pack_of_idle (a : BitVec 21) (h : s.ph = .idle) :
    exec (.pack a) s = .next { s with
      op := 2#3, a := a, ocnt := 0#32, acc := 0#20, nbits := 0#5, cidx := 0#Config.lenW, gcnt := 0#5,
      wpos := (a.extractLsb' 0 4).setWidth 5, done := false, ph := .msg } := by
  rw [exec, execPack, whenIdle_of_idle _ h]
  rfl

/-- A launch writes neither byte space, nor `MLEN`, nor the host's moves. -/
theorem exec_frame {i : Instr} (h : exec i s = .next t) :
    t.msg = s.msg ∧ t.out = s.out ∧ t.mlen = s.mlen ∧ t.host = s.host := by
  by_cases hp : s.ph = .idle
  · cases i <;> simp only [exec, execCw, execPack, execAddr, execEnc, execLen, whenIdle_of_idle _ hp] at h <;>
      cases h <;> exact ⟨rfl, rfl, rfl, rfl⟩
  · rw [exec_of_busy i hp] at h
    cases h
    exact ⟨rfl, rfl, rfl, rfl⟩

theorem eq_of_exec_of_busy {i : Instr} (hp : s.ph ≠ .idle) (h : exec i s = .next t) : t = s := by
  rw [exec_of_busy i hp] at h
  cases h
  rfl

/-- A command that completes in the launch step leaves every working register (R104, R143, R181). -/
theorem complete_launch_frame (o : BitVec 3) (a : BitVec 21) (x y : Word) (hp : s.ph = .idle) :
    let u := complete { launch o a s with r0 := x, r1 := y }
    u.ph = s.ph ∧ u.cidx = s.cidx ∧ u.acc = s.acc ∧ u.nbits = s.nbits ∧ u.wpos = s.wpos ∧ u.pcnt = s.pcnt ∧
      u.padn = s.padn ∧ u.gcnt = s.gcnt :=
  ⟨hp.symm, rfl, rfl, rfl, rfl, rfl, rfl, rfl⟩

end

/-- Settles O16: in an idle state `exec` is the launch. -/
theorem sequencerCommandsLaunch : Obligations.SequencerCommandsLaunch :=
  ⟨fun a _ h => exec_pack_of_idle a h, fun a _ h => exec_enc_of_idle a h⟩

/-- Settles O42: the byte spaces by `exec_frame`; a busy core ignores the command; an idle one launches it, each command by
its own launch. -/
theorem commandFrame : Obligations.CommandFrame := by
  intro i s t h
  obtain ⟨hmsg, hout, hmlen, hhost⟩ := exec_frame h
  refine ⟨fun j => by rw [hmsg], fun j => by rw [hout], hmlen, hhost, fun hp => eq_of_exec_of_busy hp h, ?_⟩
  by_cases hp : s.ph = .idle
  · cases i with
    | cw | addr | len =>
      simp only [exec, execCw, execAddr, execLen, whenIdle_of_idle _ hp] at h
      cases h
      exact complete_launch_frame _ _ _ _ hp
    | pack a =>
      cases (exec_pack_of_idle a hp).symm.trans h
      exact ⟨rfl, rfl, rfl, rfl⟩
    | enc a =>
      cases (exec_enc_of_idle a hp).symm.trans h
      exact ⟨rfl, rfl⟩
  · cases eq_of_exec_of_busy hp h
    cases i with
    | cw | addr | len => exact ⟨rfl, rfl, rfl, rfl, rfl, rfl, rfl, rfl⟩
    | pack => exact ⟨rfl, rfl, rfl, rfl⟩
    | enc => exact ⟨rfl, rfl⟩

/-! ## Steps and moves (R21, R38, R217) -/

theorem decode_of_decodeTableWord {nbits w : Nat} {i : Instr} (h : decodeTableWord nbits w = some i) :
    decode (tableWord nbits w) = .ok i := by
  unfold decodeTableWord at h
  cases hd : decode (tableWord nbits w) with
  | error e => rw [hd] at h; cases h
  | ok j => rw [hd] at h; cases h; rfl

/-- Settles O46: a word placed by `withFetchWord` is the host's next write to `CMD`. -/
theorem stepRunsTheDecodedCommand : Obligations.StepRunsTheDecodedCommand :=
  ⟨fun _ _ _ _ hd hs => step_of_command hs hd, fun _ _ _ _ h => step_of_command rfl (decode_of_decodeTableWord h)⟩

/-- A host that waits for an idle core lets it step while it is busy, and goes on waiting (R214). -/
theorem hostMove_awaitIdle (s : State) :
    hostMove .awaitIdle s = .next (if s.ph = .idle then s else sequencerStep { s with host := .awaitIdle :: s.host }) := by
  rw [hostMove]
  by_cases hp : s.ph = .idle
  · rw [if_pos hp, busy_eq_false_iff.2 hp, if_neg Bool.false_ne_true]
  · rw [if_neg hp, busy_iff.2 hp, if_pos rfl]

theorem step_of_awaitIdle {s : State} {rest : List HostMove} (h : s.host = .awaitIdle :: rest) :
    step s = .next (if s.ph = .idle then { s with host := rest } else sequencerStep s) := by
  have hs : { s with host := .awaitIdle :: rest } = s := by rw [← h]
  exact (step_of_move h).trans ((hostMove_awaitIdle _).trans (by simp only [hs]))

/-- Settles O47: no move and `quiet` by the definition of a step, `awaitIdle` by its two cases. -/
theorem stepRunsTheSequencer : Obligations.StepRunsTheSequencer :=
  ⟨fun _ h => step_of_no_move h, fun _ _ h => step_of_move h, fun _ _ h => step_of_awaitIdle h⟩

/-- Settles O49, by induction on the number of steps, each of which answers the same state. -/
theorem idleCoreWaits : Obligations.IdleCoreWaits := by
  intro s k hh hp
  induction k with
  | zero => rfl
  | succ k ih => rw [runSteps, step_of_idle hh hp]; exact ih

/-! ## Placing a byte, writing `MLEN`, reading registers (R38, R212) -/

/-- A byte that the host may place is written, and nothing else. -/
theorem eq_of_placeMsg {i : BitVec Config.lenW} {b : Byte} {s t : State} (h : placeMsg i b s = .next t) :
    t = { s with msg := s.msg.write i.toNat b } := by
  unfold placeMsg at h
  split at h
  · cases h
  · cases h; rfl

theorem writeMlen_of_idle {s : State} (v : Word) (h : s.ph = .idle) :
    writeMlen v s = { s with mlen := v.extractLsb' 0 Config.lenW } := by
  rw [writeMlen, busy_eq_false_iff.2 h, BitVec.setWidth_eq_extractLsb' (by decide)]
  rfl

theorem writeMlen_frame (v : Word) (s : State) : writeMlen v s = { s with mlen := (writeMlen v s).mlen } := by
  unfold writeMlen
  split <;> rfl

/-- Settles O50: a placed byte by the laws of a byte space, `MLEN` by the frame of its write. -/
theorem hostMoveFrame : Obligations.HostMoveFrame := by
  refine ⟨fun i b s t h => ?placed, fun v s t h => ?mlen⟩
  case placed =>
    obtain rfl := eq_of_placeMsg h
    exact ⟨rfl, Memory.read?_write_same _ _ _, fun j hj => Memory.read?_write_other _ _ hj⟩
  case mlen =>
    cases h
    exact writeMlen_frame v s

theorem getLsbD_statusWord (s : State) (i : Nat) :
    (statusWord s).getLsbD i = if i = 0 then s.busy else if i = 1 then s.done else false := by
  rw [statusWord, BitVec.getLsbD_append, BitVec.getLsbD_append]
  match i with
  | 0 => simp
  | 1 => simp
  | i + 2 => simp

/-- Settles O40: the fields of `CMD` and `STATUS` from their concatenations; reads and the ignored writes by definition. -/
theorem hostRegisterAccess : Obligations.HostRegisterAccess := by
  refine ⟨fun s => ⟨fieldOp_of_fields _ _ _, fieldZero_of_fields _ _ _, fieldA_of_fields _ _ _, rfl, ?busy, ?done, ?rest,
    rfl, rfl, rfl⟩, fun s r rest hs => step_of_move hs, fun s v rest hp hs => ?mlen, fun s r v rest hc hm hs => ?readOnly⟩
  case busy =>
    rw [hostRead, getLsbD_statusWord, if_pos rfl, Bool.eq_iff_iff, busy_iff, decide_eq_true_iff]
  case done => exact getLsbD_statusWord s 1
  case rest =>
    apply BitVec.eq_of_getLsbD_eq
    intro i _
    rw [BitVec.getLsbD_extractLsb', hostRead, getLsbD_statusWord, if_neg (by omega), if_neg (by omega), Bool.and_false,
      BitVec.getLsbD_zero]
  case mlen =>
    exact (step_of_move hs).trans (congrArg Host.Outcome.next (writeMlen_of_idle (s := { s with host := rest }) v hp))
  case readOnly =>
    rw [step_of_move hs]
    cases r with
    | cmd => exact absurd rfl hc
    | mlen => exact absurd rfl hm
    | status | r0 | r1 | ocnt => rfl

/-! ## The one refusal (R190, R213) -/

theorem breaksStableMessage_iff {i : BitVec Config.lenW} {b : Byte} {s : State} :
    breaksStableMessage i b s = true ↔ s.ph ≠ .idle ∧ i.toNat < s.mlen.toNat ∧ s.msg.read? i.toNat ≠ some b := by
  rw [breaksStableMessage, Bool.and_eq_true, Bool.and_eq_true, busy_iff, decide_eq_true_iff, decide_eq_true_iff, and_assoc]

theorem exists_exec_eq_next (i : Instr) (s : State) : ∃ t, exec i s = .next t := by
  cases i <;> exact ⟨_, rfl⟩

theorem exists_hostWrite_eq_next (r : HostReg) (v : Word) (s : State) : ∃ t, hostWrite r v s = .next t := by
  cases r with
  | cmd =>
    change ∃ t, writeCmd v s = .next t
    unfold writeCmd
    split
    · exact exists_exec_eq_next _ s
    · exact ⟨s, rfl⟩
  | mlen | status | r0 | r1 | ocnt => exact ⟨_, rfl⟩

/-- The host's next move would change the message of the command that runs (R213). -/
def ChangesRunningMessage (s : State) : Prop :=
  ∃ i b rest, s.host = .placeMsg i b :: rest ∧ s.ph ≠ .idle ∧ i.toNat < s.mlen.toNat ∧ s.msg.read? i.toNat ≠ some b

theorem step_of_changesRunningMessage {s : State} (h : ChangesRunningMessage s) :
    step s = .refused .messageChangedWhileBusy := by
  obtain ⟨i, b, rest, hs, hbreaks⟩ := h
  exact (step_of_move hs).trans (if_pos (breaksStableMessage_iff.2 hbreaks))

theorem exists_placeMsg_eq_next {i : BitVec Config.lenW} {b : Byte} {s : State} (h : breaksStableMessage i b s ≠ true) :
    ∃ t, placeMsg i b s = .next t := by
  rw [placeMsg, if_neg h]
  exact ⟨_, rfl⟩

theorem exists_step_eq_next {s : State} (h : ¬ ChangesRunningMessage s) : ∃ t, step s = .next t := by
  cases hs : s.host with
  | nil => exact ⟨_, step_of_no_move hs⟩
  | cons m rest =>
    rw [step_of_move hs]
    cases m with
    | write r v => exact exists_hostWrite_eq_next r v _
    | placeMsg i b => exact exists_placeMsg_eq_next fun hb => h ⟨i, b, rest, hs, breaksStableMessage_iff.1 hb⟩
    | read | reset | quiet | awaitIdle => exact ⟨_, rfl⟩

/-- Settles O45: a step that would change the running message is refused, and every other step answers a next state. -/
theorem onlyAMessageChangeIsRefused : Obligations.OnlyAMessageChangeIsRefused := by
  intro s
  by_cases h : ChangesRunningMessage s
  · rw [step_of_changesRunningMessage h]
    exact ⟨⟨nofun, fun hn => absurd h hn⟩, .inr rfl⟩
  · exact ⟨⟨fun _ => h, fun _ => exists_step_eq_next h⟩, .inl (exists_step_eq_next h)⟩

end Sys2Proof.Machine

namespace Sys2Proof.Machine

/-! ## What the step rules leave unchanged (R22 to R31) -/

section

variable {s : State}

theorem sequencerStep_msg (h : s.ph = .msg) : sequencerStep s = msgStep s := by rw [sequencerStep, h]

theorem sequencerStep_padPost_eq (h : s.ph = .padPost) : sequencerStep s = padPostStep s := by rw [sequencerStep, h]

/-- The loop of the byte step: the 7 bits of a character (R128). -/
def packChar (c : Byte) (s : State) : State := (charBits c).foldl packBit s

theorem byteStep_eq_packChar (s : State) :
    byteStep s = enterSyncAtBoundary { packChar (memRead s s.cidx) s with cidx := s.cidx + 1 } := rfl

/-- The steps of `PH_MSG` write neither of the two counters of the frame (R128 to R130). -/
theorem msgStep_frame (s : State) : (msgStep s).pcnt = s.pcnt ∧ (msgStep s).padn = s.padn := by
  unfold msgStep
  split
  · obtain ⟨-, -, -, -, -, hpcnt, hpadn, -⟩ := foldl_packBit_frame (charBits (memRead s s.cidx)) s
    rw [byteStep_eq_packChar, packChar]
    generalize (charBits (memRead s s.cidx)).foldl packBit s = t at hpcnt hpadn
    exact ⟨hpcnt, hpadn⟩
  · split
    · exact ⟨rfl, rfl⟩
    · unfold leaveStep
      split
      · exact ⟨rfl, rfl⟩
      · split <;> exact ⟨rfl, rfl⟩

theorem sequencerStep_pcnt (h : s.ph ≠ .pre) : (sequencerStep s).pcnt = s.pcnt := by
  cases hp : s.ph with
  | pre => exact absurd hp h
  | msg =>
    obtain ⟨hpcnt, -⟩ := msgStep_frame s
    rw [sequencerStep_msg hp, hpcnt]
  | padPost =>
    rw [sequencerStep_padPost_eq hp, padPostStep]
    split <;> rfl
  | idle => rw [sequencerStep_idle hp]
  | sync0 | padPre | addrW | msync | tail => rw [sequencerStep, hp]; rfl

theorem sequencerStep_padn (h : s.ph ≠ .padPre) : (sequencerStep s).padn = s.padn := by
  cases hp : s.ph with
  | padPre => exact absurd hp h
  | msg =>
    obtain ⟨-, hpadn⟩ := msgStep_frame s
    rw [sequencerStep_msg hp, hpadn]
  | padPost =>
    rw [sequencerStep_padPost_eq hp, padPostStep]
    split <;> rfl
  | idle => rw [sequencerStep_idle hp]
  | pre | sync0 | addrW | msync | tail => rw [sequencerStep, hp]; rfl

/-- Only `PH_MSG` writes the packer's registers. -/
theorem sequencerStep_packer (h : s.ph ≠ .msg) :
    (sequencerStep s).cidx = s.cidx ∧ (sequencerStep s).acc = s.acc ∧ (sequencerStep s).nbits = s.nbits := by
  cases hp : s.ph with
  | msg => exact absurd hp h
  | padPost =>
    rw [sequencerStep_padPost_eq hp, padPostStep]
    split <;> exact ⟨rfl, rfl, rfl⟩
  | idle | pre | sync0 | padPre | addrW | msync | tail => rw [sequencerStep, hp]; exact ⟨rfl, rfl, rfl⟩

theorem sequencerStep_wpos (h : s.ph = .idle ∨ s.ph = .pre ∨ s.ph = .sync0) : (sequencerStep s).wpos = s.wpos := by
  rcases h with hp | hp | hp
  · rw [sequencerStep_idle hp]
  · rw [sequencerStep_pre hp]; rfl
  · rw [sequencerStep_sync0 hp]; rfl

theorem sequencerStep_gcnt (h : s.ph = .idle ∨ s.ph = .pre) : (sequencerStep s).gcnt = s.gcnt := by
  rcases h with hp | hp
  · rw [sequencerStep_idle hp]
  · rw [sequencerStep_pre hp]; rfl

end

/-- Settles O43: the registers that no step rule writes by `sequencerStep_frame`, the others one by one. -/
theorem sequencerFrame : Obligations.SequencerFrame := by
  intro s
  obtain ⟨hop, ha, hmlen, hr0, hr1, hmsg, hhost⟩ := sequencerStep_frame s
  exact ⟨hop, ha, hmlen, hr0, hr1, hhost, fun j => by rw [hmsg], sequencerStep_pcnt, sequencerStep_padn,
    sequencerStep_packer, sequencerStep_wpos, sequencerStep_gcnt, sequencerStep_idle⟩

/-! ## What a step reads of the message (R51) -/

section

variable {s : State} {m : Memory}

/-- The state with another message memory. -/
def State.withMsg (s : State) (m : Memory) : State := { s with msg := m }

theorem packBit_withMsg (s : State) (m : Memory) (b : Bool) : packBit (s.withMsg m) b = (packBit s b).withMsg m := by
  unfold packBit
  by_cases h : s.nbits.toNat + 1 = 20
  · rw [if_pos h]
    exact if_pos h
  · rw [if_neg h]
    exact if_neg h

/-- The loop of the byte step does not see the message memory: the byte is read before it. -/
theorem foldl_packBit_withMsg (bs : List Bool) (s : State) (m : Memory) :
    bs.foldl packBit (s.withMsg m) = (bs.foldl packBit s).withMsg m := by
  induction bs generalizing s with
  | nil => rfl
  | cons b bs ih => rw [List.foldl_cons, List.foldl_cons, packBit_withMsg, ih]

theorem packChar_withMsg (c : Byte) (s : State) (m : Memory) : packChar c (s.withMsg m) = (packChar c s).withMsg m := by
  rw [packChar, packChar, foldl_packBit_withMsg]

/-- The byte step reads `MSG[CIDX]` alone. -/
theorem byteStep_withMsg (h : msgByte m s.cidx.toNat = msgByte s.msg s.cidx.toNat) :
    byteStep (s.withMsg m) = (byteStep s).withMsg m := by
  have hread : memRead (s.withMsg m) (s.withMsg m).cidx = memRead s s.cidx := h
  rw [byteStep_eq_packChar, byteStep_eq_packChar, hread, packChar_withMsg]
  generalize packChar (memRead s s.cidx) s = t
  rfl

theorem leaveStep_withMsg (s : State) (m : Memory) : leaveStep (s.withMsg m) = (leaveStep s).withMsg m := by
  unfold leaveStep
  by_cases he : s.op = 4#3
  · rw [if_pos he]
    exact if_pos he
  · rw [if_neg he]
    refine (if_neg he).trans ?_
    by_cases hk : s.op = 2#3
    · rw [if_pos hk]
      exact if_pos hk
    · rw [if_neg hk]
      exact if_neg hk

theorem msgStep_withMsg (h : s.cidx.toNat < s.mlen.toNat → msgByte m s.cidx.toNat = msgByte s.msg s.cidx.toNat) :
    msgStep (s.withMsg m) = (msgStep s).withMsg m := by
  unfold msgStep
  by_cases hc : s.cidx.toNat < s.mlen.toNat
  · rw [if_pos hc]
    exact (if_pos hc).trans (byteStep_withMsg (h hc))
  · rw [if_neg hc]
    refine (if_neg hc).trans ?_
    by_cases hn : 0 < s.nbits.toNat
    · rw [if_pos hn]
      exact if_pos hn
    · rw [if_neg hn]
      exact (if_neg hn).trans (leaveStep_withMsg s m)

theorem padPostStep_withMsg (s : State) (m : Memory) : padPostStep (s.withMsg m) = (padPostStep s).withMsg m := by
  unfold padPostStep
  by_cases hg : s.gcnt = 0#5
  · rw [if_pos hg]
    exact if_pos hg
  · rw [if_neg hg]
    exact if_neg hg

theorem sequencerStep_withMsg
    (h : s.ph = .msg → s.cidx.toNat < s.mlen.toNat → msgByte m s.cidx.toNat = msgByte s.msg s.cidx.toNat) :
    sequencerStep (s.withMsg m) = (sequencerStep s).withMsg m := by
  cases hp : s.ph with
  | idle => rw [sequencerStep_idle hp]; exact sequencerStep_idle hp
  | msg => rw [sequencerStep_msg hp]; exact (sequencerStep_msg (s := s.withMsg m) hp).trans (msgStep_withMsg (h hp))
  | padPost =>
    rw [sequencerStep_padPost_eq hp]
    exact (sequencerStep_padPost_eq (s := s.withMsg m) hp).trans (padPostStep_withMsg s m)
  | pre => rw [sequencerStep_pre hp]; exact sequencerStep_pre hp
  | sync0 => rw [sequencerStep_sync0 hp]; exact sequencerStep_sync0 hp
  | padPre => rw [sequencerStep_padPre hp]; exact sequencerStep_padPre hp
  | addrW => rw [sequencerStep_addrW hp]; exact sequencerStep_addrW hp
  | msync => rw [sequencerStep_msync hp]; exact sequencerStep_msync hp
  | tail => rw [sequencerStep_tail hp]; exact sequencerStep_tail hp

theorem msgStep_cidx (s : State) :
    (msgStep s).cidx = if s.cidx.toNat < s.mlen.toNat then s.cidx + 1#Config.lenW else s.cidx := by
  unfold msgStep
  split
  · rfl
  · split
    · rfl
    · unfold leaveStep
      split
      · rfl
      · split <;> rfl

theorem sequencerStep_cidx (s : State) :
    (sequencerStep s).cidx =
      if s.ph = .msg ∧ s.cidx.toNat < s.mlen.toNat then s.cidx + 1#Config.lenW else s.cidx := by
  by_cases hp : s.ph = .msg
  · simp only [sequencerStep_msg hp, hp, true_and, msgStep_cidx]
  · obtain ⟨hc, -, -⟩ := sequencerStep_packer hp
    rw [hc, if_neg fun h => hp h.1]

end

/-- Settles O34: only the byte step reads, at `CIDX`, before its loop; only it counts. -/
theorem coreReadsOnlyTheNextMessageByte : Obligations.CoreReadsOnlyTheNextMessageByte := by
  intro s m h
  obtain ⟨-, -, -, -, -, hmsg, -⟩ := sequencerStep_frame s
  exact ⟨sequencerStep_withMsg h, hmsg, sequencerStep_cidx s⟩

end Sys2Proof.Machine

namespace Sys2Proof.Machine

/-! ## The invariant at reset and under every step (R39) -/

section

variable {s t : State}

/-- Settles O35: every counter is 0, no index is listed and `OCNT` is 0. -/
theorem invariantHoldsAtReset : Obligations.InvariantHoldsAtReset where
  bounds := by constructor <;> decide
  phase := trivial
  spaces := ⟨Memory.wf_nil, Memory.wf_nil, nofun, nofun, fun _ hj => absurd hj (Nat.not_lt_zero _)⟩

/-- The invariant says nothing of the host's moves. -/
theorem Inv.withHost (hi : Inv s) (rest : List HostMove) : Inv { s with host := rest } := by
  obtain ⟨⟨b1, b2, b3, b4, b5, b6, b7, b8, b9⟩, hf, ⟨m1, m2, m3, m4, m5⟩⟩ := hi
  exact ⟨⟨b1, b2, b3, b4, b5, b6, b7, b8, b9⟩, hf, ⟨m1, m2, m3, m4, m5⟩⟩

/-- With `OCNT = 0` no byte of `OUT` has to be written. -/
theorem Inv.spacesFit_of_ocnt_zero (hi : Inv s) (hout : t.out = s.out) (hmsg : t.msg = s.msg) (hocnt : t.ocnt = 0#32) :
    SpacesFit t where
  out_canonical := hout ▸ hi.spaces.out_canonical
  msg_canonical := hmsg ▸ hi.spaces.msg_canonical
  out_indices := hout ▸ hi.spaces.out_indices
  msg_indices := hmsg ▸ hi.spaces.msg_indices
  out_written j hj := by rw [hocnt] at hj; exact absurd hj (Nat.not_lt_zero j)

/-- A command that completes in the launch step leaves the working registers within their bounds. -/
theorem Inv.complete_launch (hi : Inv s) (o : BitVec 3) (a : BitVec 21) (x y : Word) :
    Inv (complete { launch o a s with r0 := x, r1 := y }) where
  bounds :=
    { hi.bounds with wpos_full := fun _ => .inr (.inr rfl), cidx_le := fun h => absurd rfl h, ocnt_words := rfl }
  phase := trivial
  spaces := hi.spacesFit_of_ocnt_zero rfl rfl rfl

theorem toNat_startWordPosition_le (a : BitVec 21) : (startWordPosition a).toNat ≤ 15 := by
  rw [startWordPosition, BitVec.toNat_setWidth_of_le (by decide)]
  exact Nat.le_of_lt_succ (a.extractLsb' 0 4).isLt

/-- The launch of `PACK` empties the packer and starts inside a batch (R126). -/
theorem Inv.exec_pack (hi : Inv s) (a : BitVec 21) (hp : s.ph = .idle) (h : exec (.pack a) s = .next t) : Inv t := by
  have hw := toNat_startWordPosition_le a
  cases (exec_pack_of_idle a hp).symm.trans h
  refine ⟨?bounds, ⟨rfl, .inr rfl, hw, nofun⟩, hi.spacesFit_of_ocnt_zero rfl rfl rfl⟩
  exact {
    nbits_le := Nat.zero_le _
    acc_lt := Nat.one_pos
    wpos_le := Nat.le_succ_of_le hw
    wpos_full := fun h16 => absurd (h16 ▸ hw) (by decide)
    padn_le := hi.bounds.padn_le
    pcnt_le := hi.bounds.pcnt_le
    cidx_le := fun _ => Nat.zero_le _
    gcnt_le := Nat.zero_le _
    ocnt_words := rfl }

/-- The launch of `ENC` sets every counter to 0 and owes `PAD_COUNT(A)` Idle words (R152). -/
theorem Inv.exec_enc (hi : Inv s) (a : BitVec 21) (hp : s.ph = .idle) (h : exec (.enc a) s = .next t) : Inv t := by
  cases (exec_enc_of_idle a hp).symm.trans h
  refine ⟨?bounds, ⟨rfl, rfl, rfl, rfl, rfl, rfl, rfl, rfl, Nat.zero_le _⟩, hi.spacesFit_of_ocnt_zero rfl rfl rfl⟩
  exact {
    nbits_le := Nat.zero_le _
    acc_lt := Nat.one_pos
    wpos_le := Nat.zero_le _
    wpos_full := nofun
    padn_le := toNat_padCount_le a
    pcnt_le := Nat.zero_le _
    cidx_le := fun _ => Nat.zero_le _
    gcnt_le := Nat.zero_le _
    ocnt_words := rfl }

theorem Inv.exec (hi : Inv s) {i : Instr} (h : exec i s = .next t) : Inv t := by
  by_cases hp : s.ph = .idle
  · cases i with
    | cw | addr | len =>
      simp only [Machine.exec, execCw, execAddr, execLen, whenIdle_of_idle _ hp] at h
      cases h
      exact hi.complete_launch _ _ _ _
    | pack a => exact hi.exec_pack a hp h
    | enc a => exact hi.exec_enc a hp h
  · exact eq_of_exec_of_busy hp h ▸ hi

/-- `MLEN` changes only while no command runs, where nothing is said of it. -/
theorem Inv.writeMlen (hi : Inv s) (v : Word) : Inv (writeMlen v s) := by
  by_cases hp : s.ph = .idle
  · rw [writeMlen_of_idle v hp]
    obtain ⟨b, hf, ⟨m1, m2, m3, m4, m5⟩⟩ := hi
    refine ⟨{ b with cidx_le := fun h => absurd hp h }, ?_, ⟨m1, m2, m3, m4, m5⟩⟩
    simp only [PhaseFacts, hp]
  · rw [writeMlen_of_busy v hp]
    exact hi

theorem Inv.hostWrite (hi : Inv s) {r : HostReg} {v : Word} (h : hostWrite r v s = .next t) : Inv t := by
  cases r with
  | cmd =>
    change writeCmd v s = .next t at h
    unfold writeCmd at h
    split at h
    · exact hi.exec h
    · cases h; exact hi
  | mlen => cases h; exact hi.writeMlen v
  | status | r0 | r1 | ocnt => cases h; exact hi

/-- A placed byte keeps the message memory canonical and within its space. -/
theorem Inv.placeMsg (hi : Inv s) {i : BitVec Config.lenW} {b : Byte} (h : placeMsg i b s = .next t) : Inv t := by
  obtain rfl := eq_of_placeMsg h
  obtain ⟨⟨b1, b2, b3, b4, b5, b6, b7, b8, b9⟩, hf, ⟨m1, m2, m3, m4, m5⟩⟩ := hi
  exact ⟨⟨b1, b2, b3, b4, b5, b6, b7, b8, b9⟩, hf,
    ⟨m1, Memory.wf_write m2 _ _, m3, Memory.indices_write m4 i.isLt, m5⟩⟩

theorem Inv.resetCore (hi : Inv s) : Inv (resetCore s) where
  bounds := { invariantHoldsAtReset.bounds with }
  phase := trivial
  spaces := hi.spacesFit_of_ocnt_zero rfl rfl rfl

theorem Inv.hostMove (hi : Inv s) {m : HostMove} (h : hostMove m s = .next t) : Inv t := by
  cases m with
  | write r v => exact hi.hostWrite h
  | read r => cases h; exact hi
  | placeMsg i b => exact hi.placeMsg h
  | reset => cases h; exact hi.resetCore
  | quiet => cases h; exact sequencerStep_inv s hi
  | awaitIdle =>
    cases (hostMove_awaitIdle s).symm.trans h
    split
    · exact hi
    · exact sequencerStep_inv _ (hi.withHost _)

end

/-- Settles O36: a step is a step of the sequencer, which keeps the invariant by `sequencerStep_inv`, or a move of the host,
each of which keeps it. -/
theorem everyStepKeepsTheInvariant : Obligations.EveryStepKeepsTheInvariant := by
  intro s t hi h
  cases hs : s.host with
  | nil =>
    cases (step_of_no_move hs).symm.trans h
    exact sequencerStep_inv s hi
  | cons m rest => exact (hi.withHost rest).hostMove ((step_of_move hs).symm.trans h)

end Sys2Proof.Machine

namespace Sys2Proof.Machine

/-! ## The phase graph (R160) -/

section

variable {s : State}

/-- A byte or flush step stays in `PH_MSG` unless it fills the batch (R128, R129). -/
theorem enterSyncAtBoundary_ph (s : State) :
    (enterSyncAtBoundary s).ph = if (enterSyncAtBoundary s).wpos.toNat ≠ 16 then s.ph else .msync := by
  rw [enterSyncAtBoundary_eq, ite_not]

theorem packChar_ph (c : Byte) (s : State) : (packChar c s).ph = s.ph := by
  obtain ⟨hph, -⟩ := foldl_packBit_frame (charBits c) s
  exact hph

theorem byteStep_ph (s : State) : (byteStep s).ph = if (byteStep s).wpos.toNat ≠ 16 then s.ph else .msync := by
  rw [byteStep_eq_packChar, enterSyncAtBoundary_ph, ← packChar_ph (memRead s s.cidx) s]

theorem flushStep_ph (s : State) : (flushStep s).ph = if (flushStep s).wpos.toNat ≠ 16 then s.ph else .msync :=
  enterSyncAtBoundary_ph _

theorem Inv.cidx_le_of_msg (hi : Inv s) (hp : s.ph = .msg) : s.cidx.toNat ≤ s.mlen.toNat :=
  hi.bounds.cidx_le (hp.trans_ne nofun)

theorem Inv.cidx_lt_of_ne (hi : Inv s) (hp : s.ph = .msg) (hc : s.cidx ≠ s.mlen) : s.cidx.toNat < s.mlen.toNat :=
  Nat.lt_of_le_of_ne (hi.cidx_le_of_msg hp) fun h => hc (BitVec.eq_of_toNat_eq h)

/-- Only `PACK` and `ENC` reach the packer's phases (R130). -/
theorem Inv.op_of_packer (hi : Inv s) (hp : s.ph = .msg ∨ s.ph = .msync) : s.op = 2#3 ∨ s.op = 4#3 := by
  have hf := hi.phase
  rcases hp with hp | hp <;> simp only [PhaseFacts, hp] at hf
  · obtain ⟨-, hop, -⟩ := hf
    exact hop.symm
  · obtain ⟨-, hop, -⟩ := hf
    exact hop.symm

/-- While the packer has work, it stays in its phases. -/
theorem sequencerStep_ph_of_msg (hi : Inv s) (hp : s.ph = .msg) (hw : s.cidx ≠ s.mlen ∨ s.nbits ≠ 0#5) :
    (sequencerStep s).ph = if (sequencerStep s).wpos.toNat ≠ 16 then .msg else .msync := by
  by_cases hc : s.cidx = s.mlen
  · have hn := toNat_ne_zero5 (hw.resolve_left fun h => h hc)
    rw [sequencerStep_flush hp (by rw [hc]) (Nat.pos_of_ne_zero hn), flushStep_ph, hp]
  · rw [sequencerStep_byte hp (hi.cidx_lt_of_ne hp hc), byteStep_ph, hp]

/-- The packer's work done, `ENC` goes on to the trailing Idle and `PACK` ends (R130). -/
theorem sequencerStep_of_packed (hp : s.ph = .msg) (hc : s.cidx = s.mlen) (hn : s.nbits = 0#5) :
    (s.op = 4#3 → sequencerStep s = { s with ph := .tail }) ∧ (s.op = 2#3 → sequencerStep s = complete s) := by
  rw [sequencerStep_leave hp (by rw [hc]) (by rw [hn]; rfl)]
  exact ⟨leaveStep_enc, leaveStep_pack⟩

end

/-! ### The phase depends neither on the message bytes nor on the address -/

/-- Bits held and word position, which the byte step's loop counts without looking at the bits (R128). -/
def packCounters (s : State) : BitVec 5 × BitVec 5 := (s.nbits, s.wpos)

/-- One bit more, in numbers. -/
def countBit (c : BitVec 5 × BitVec 5) : BitVec 5 × BitVec 5 :=
  if c.1.toNat + 1 = 20 then (0#5, nextWordPosition c.2) else (c.1 + 1#5, c.2)

theorem packCounters_packBit (s : State) (b : Bool) : packCounters (packBit s b) = countBit (packCounters s) := by
  unfold packBit
  by_cases h : s.nbits.toNat + 1 = 20
  · rw [if_pos h]
    exact (if_pos h).symm
  · rw [if_neg h]
    exact (if_neg h).symm

theorem packCounters_foldl (bs : List Bool) (s : State) :
    packCounters (bs.foldl packBit s) = countBit^[bs.length] (packCounters s) := by
  induction bs generalizing s with
  | nil => rfl
  | cons b bs ih => rw [List.foldl_cons, ih, packCounters_packBit, List.length_cons, Function.iterate_succ_apply]

theorem wpos_foldl_packBit (bs : List Bool) (s : State) :
    (bs.foldl packBit s).wpos = (countBit^[bs.length] (packCounters s)).2 := by
  rw [← packCounters_foldl, packCounters]

theorem byteStep_wpos (s : State) : (byteStep s).wpos = (countBit^[7] (packCounters s)).2 := by
  rw [← length_charBits (memRead s s.cidx), ← wpos_foldl_packBit, ← packChar, byteStep_eq_packChar,
    enterSyncAtBoundary_eq]

/-- The phase after a byte step, from the counters before it. -/
theorem byteStep_ph_eq_counters (s : State) :
    (byteStep s).ph = if (countBit^[7] (packCounters s)).2.toNat ≠ 16 then s.ph else .msync := by
  rw [byteStep_ph, byteStep_wpos]

theorem leaveStep_ph (s : State) :
    (leaveStep s).ph = if s.op = 4#3 then .tail else if s.op = 2#3 then .idle else s.ph := by
  unfold leaveStep
  split
  · rfl
  · split <;> rfl

/-- The state with another message memory and another operand. -/
def State.withMsgAndOperand (s : State) (m : Memory) (a : BitVec 21) : State := { s with msg := m, a := a }

theorem sequencerStep_ph_withMsgAndOperand (s : State) (m : Memory) (a : BitVec 21) :
    (sequencerStep (s.withMsgAndOperand m a)).ph = (sequencerStep s).ph := by
  cases hp : s.ph with
  | msg =>
    by_cases hc : s.cidx.toNat < s.mlen.toNat
    · rw [sequencerStep_byte hp hc, sequencerStep_byte (s := s.withMsgAndOperand m a) hp hc, byteStep_ph_eq_counters,
        byteStep_ph_eq_counters]
      rfl
    · have hle := Nat.le_of_not_lt hc
      by_cases hn : 0 < s.nbits.toNat
      · rw [sequencerStep_flush hp hle hn, sequencerStep_flush (s := s.withMsgAndOperand m a) hp hle hn]
        rfl
      · have hz := Nat.eq_zero_of_not_pos hn
        rw [sequencerStep_leave hp hle hz, sequencerStep_leave (s := s.withMsgAndOperand m a) hp hle hz, leaveStep_ph,
          leaveStep_ph]
        rfl
  | padPost =>
    by_cases hg : s.gcnt = 0#5
    · rw [sequencerStep_finish hp hg, sequencerStep_finish (s := s.withMsgAndOperand m a) hp hg]; rfl
    · rw [sequencerStep_padPost hp hg, sequencerStep_padPost (s := s.withMsgAndOperand m a) hp hg]; rfl
  | idle => rw [sequencerStep_idle hp, sequencerStep_idle (s := s.withMsgAndOperand m a) hp]; rfl
  | pre => rw [sequencerStep_pre hp, sequencerStep_pre (s := s.withMsgAndOperand m a) hp]; rfl
  | sync0 => rw [sequencerStep_sync0 hp, sequencerStep_sync0 (s := s.withMsgAndOperand m a) hp]; rfl
  | padPre => rw [sequencerStep_padPre hp, sequencerStep_padPre (s := s.withMsgAndOperand m a) hp]; rfl
  | addrW => rw [sequencerStep_addrW hp, sequencerStep_addrW (s := s.withMsgAndOperand m a) hp]
  | msync => rw [sequencerStep_msync hp, sequencerStep_msync (s := s.withMsgAndOperand m a) hp]
  | tail => rw [sequencerStep_tail hp, sequencerStep_tail (s := s.withMsgAndOperand m a) hp]

/-- Settles O31: the edge of each phase by the lemma of its step, with `PCNT` and `PADN` within their bounds; a launch by the
phase that `start` or `complete` leaves. -/
theorem phaseGraphEdges : Obligations.PhaseGraphEdges := by
  refine ⟨fun s hi hh => ⟨_, step_of_no_move hh, fun hp => ?idle, fun hp => ?pre, fun hp => ?sync0, fun hp => ?padPre,
    fun hp => ?addrW, fun hp => sequencerStep_ph_of_msg hi hp, fun hp hc hn => ?leave, fun hp => ?msync, fun hp => ?tail,
    fun hp => ?padPost⟩, fun i s hp => ?launch, fun c s rest he hs hp => ⟨_, step_of_reserved he hs, hp⟩,
    sequencerStep_ph_withMsgAndOperand⟩
  case launch =>
    cases i <;> simp only [exec, execCw, execPack, execAddr, execEnc, execLen, whenIdle_of_idle _ hp] <;>
      exact ⟨_, rfl, rfl⟩
  case idle => rw [sequencerStep_idle hp]; exact hp
  case pre =>
    have hf := hi.phase
    simp only [PhaseFacts, hp] at hf
    obtain ⟨-, -, -, -, -, -, -, -, hle⟩ := hf
    rw [sequencerStep_pre hp, ← ite_not]
    exact if_congr (by omega) rfl rfl
  case sync0 => rw [sequencerStep_sync0 hp, ite_not]
  case padPre =>
    have hf := hi.phase
    simp only [PhaseFacts, hp] at hf
    obtain ⟨-, -, -, -, -, -, hz, -⟩ := hf
    obtain ⟨hpred, -⟩ := toNat_pred3 hz
    rw [sequencerStep_padPre hp, ite_not]
    exact if_congr (by rw [← hpred, ← BitVec.toNat_inj]; rfl) rfl rfl
  case addrW => rw [sequencerStep_addrW hp]
  case leave =>
    obtain ⟨henc, hpack⟩ := sequencerStep_of_packed hp hc hn
    rcases hi.op_of_packer (.inl hp) with hop | hop
    · exact .inr ⟨hop, by rw [hpack hop]; rfl⟩
    · exact .inl ⟨hop, by rw [henc hop]⟩
  case msync => rw [sequencerStep_msync hp]
  case tail => rw [sequencerStep_tail hp]
  case padPost =>
    by_cases hg : s.gcnt = 0#5
    · rw [sequencerStep_finish hp hg, if_neg (not_not.2 hg)]; rfl
    · rw [sequencerStep_padPost hp hg, if_pos hg]; exact hp

/-! ## The group counter under `ENC` (R30, R131) -/

section

variable {s : State}

/-- From the first Sync on, `GCNT` counts the words of the group one ahead of `WPOS`. -/
theorem Inv.gcnt_eq_of_enc (hi : Inv s) (hop : s.op = 4#3)
    (hp : s.ph ≠ .idle ∧ s.ph ≠ .pre ∧ s.ph ≠ .sync0) : s.gcnt.toNat = (s.wpos.toNat + 1) % 17 := by
  obtain ⟨hidle, hpre, hsync0⟩ := hp
  have hf := hi.phase
  have hpad := toNat_padCount_le s.a
  cases hp : s.ph with
  | idle => exact absurd hp hidle
  | pre => exact absurd hp hpre
  | sync0 => exact absurd hp hsync0
  | padPre =>
    simp only [PhaseFacts, hp] at hf
    obtain ⟨-, -, -, -, -, hw, -, hg⟩ := hf
    omega
  | addrW =>
    simp only [PhaseFacts, hp] at hf
    obtain ⟨-, -, -, -, -, hw, -, hg⟩ := hf
    omega
  | msg =>
    simp only [PhaseFacts, hp] at hf
    obtain ⟨-, -, hw, hg⟩ := hf
    have := hg hop
    omega
  | msync =>
    simp only [PhaseFacts, hp] at hf
    obtain ⟨-, -, hw, hg⟩ := hf
    have := hg hop
    omega
  | tail =>
    simp only [PhaseFacts, hp] at hf
    obtain ⟨-, -, -, -, hw, hg⟩ := hf
    omega
  | padPost =>
    simp only [PhaseFacts, hp] at hf
    obtain ⟨-, -, -, -, hg⟩ := hf
    exact hg

/-- No edge of the phase graph leads back before the first Sync (R160). -/
theorem sequencerStep_ph_after_preamble (hi : Inv s) (hidle : s.ph ≠ .idle) (hpre : s.ph ≠ .pre) :
    (sequencerStep s).ph ≠ .pre ∧ (sequencerStep s).ph ≠ .sync0 := by
  cases hp : s.ph with
  | idle => exact absurd hp hidle
  | pre => exact absurd hp hpre
  | sync0 => rw [sequencerStep_sync0 hp]; dsimp only; split <;> exact ⟨nofun, nofun⟩
  | padPre => rw [sequencerStep_padPre hp]; dsimp only; split <;> exact ⟨nofun, nofun⟩
  | msg =>
    by_cases hw : s.cidx ≠ s.mlen ∨ s.nbits ≠ 0#5
    · rw [sequencerStep_ph_of_msg hi hp hw]; split <;> exact ⟨nofun, nofun⟩
    · obtain ⟨hc, hn⟩ := not_or.1 hw
      obtain ⟨henc, hpack⟩ := sequencerStep_of_packed hp (not_not.1 hc) (not_not.1 hn)
      rcases hi.op_of_packer (.inl hp) with hop | hop
      · rw [hpack hop]; exact ⟨nofun, nofun⟩
      · rw [henc hop]; exact ⟨nofun, nofun⟩
  | padPost =>
    by_cases hg : s.gcnt = 0#5
    · rw [sequencerStep_finish hp hg]; exact ⟨nofun, nofun⟩
    · rw [sequencerStep_padPost hp hg]; exact ⟨hp.trans_ne nofun, hp.trans_ne nofun⟩
  | addrW => rw [sequencerStep_addrW hp]; exact ⟨nofun, nofun⟩
  | msync => rw [sequencerStep_msync hp]; exact ⟨nofun, nofun⟩
  | tail => rw [sequencerStep_tail hp]; exact ⟨nofun, nofun⟩

theorem Inv.gcnt_of_msync (hi : Inv s) (hp : s.ph = .msync) (hop : s.op = 4#3) :
    s.gcnt = 0#5 ∧ (sequencerStep s).gcnt = 1#5 := by
  have hf := hi.phase
  simp only [PhaseFacts, hp] at hf
  obtain ⟨-, -, -, hg⟩ := hf
  have hz : s.gcnt = 0#5 := BitVec.eq_of_toNat_eq (hg hop)
  refine ⟨hz, ?_⟩
  rw [sequencerStep_msync hp, hz]
  rfl

/-- A step of `ENC` after the preamble leaves the two counters in step: by the invariant of the next state, or, when the
step completes the command, by that of the state it found. -/
theorem sequencerStep_gcnt_of_enc (hi : Inv s) (hop : s.op = 4#3) (hidle : s.ph ≠ .idle) (hpre : s.ph ≠ .pre) :
    (sequencerStep s).gcnt.toNat = ((sequencerStep s).wpos.toNat + 1) % 17 := by
  obtain ⟨hop', -⟩ := sequencerStep_frame s
  obtain ⟨hpre', hsync0'⟩ := sequencerStep_ph_after_preamble hi hidle hpre
  rcases sequencerStep_completesOrKeepsDone hidle with hdone | ⟨hidle', -⟩
  · have hsync0 : s.ph ≠ .sync0 := by
      intro hp
      have hph : (sequencerStep s).ph = .idle := by rw [hdone]; rfl
      rw [sequencerStep_sync0 hp] at hph
      dsimp only at hph
      split at hph <;> cases hph
    rw [hdone]
    exact hi.gcnt_eq_of_enc hop ⟨hidle, hpre, hsync0⟩
  · exact (sequencerStep_inv s hi).gcnt_eq_of_enc (hop'.trans hop) ⟨hidle', hpre', hsync0'⟩

end

/-- Settles O37: the invariant ties the counters, before and after the step. -/
theorem groupCountTracksWordPosition : Obligations.GroupCountTracksWordPosition := by
  refine ⟨fun s hi hp => hi.op_of_packer hp, fun s hi hp hop => hi.gcnt_of_msync hp hop,
    fun s t hi hh hop hidle hpre h => ?_⟩
  cases (step_of_no_move hh).symm.trans h
  exact sequencerStep_gcnt_of_enc hi hop hidle hpre

/-! ## What a step writes to `OUT` (R52) -/

section

variable {s : State}

/-- The step leaves `OUT` and `OCNT` as they are, or emits one word. -/
def EmitsAtMostOneWord (s t : State) : Prop :=
  (t.ocnt = s.ocnt ∧ t.out = s.out) ∨ ∃ w, t.ocnt = (emit w s).ocnt ∧ t.out = (emit w s).out

/-- The 7 bits of a character fill at most one field (R128). -/
theorem byteStep_emitsAtMostOneWord (hi : Inv s) (hp : s.ph = .msg) : EmitsAtMostOneWord s (byteStep s) := by
  have hn := hi.bounds.nbits_le
  by_cases hr : s.nbits.toNat + 7 < 20
  · have hw := hi.wpos_le_of_msg hp
    rw [byteStep_room s hr (by omega)]
    exact .inl ⟨rfl, rfl⟩
  · rw [byteStep_fill s hn (by omega)]
    exact .inr ⟨_, rfl, rfl⟩

theorem leaveStep_output (s : State) : (leaveStep s).ocnt = s.ocnt ∧ (leaveStep s).out = s.out := by
  unfold leaveStep
  split
  · exact ⟨rfl, rfl⟩
  · split <;> exact ⟨rfl, rfl⟩

theorem sequencerStep_emitsAtMostOneWord (hi : Inv s) : EmitsAtMostOneWord s (sequencerStep s) := by
  cases hp : s.ph with
  | idle => rw [sequencerStep_idle hp]; exact .inl ⟨rfl, rfl⟩
  | pre => rw [sequencerStep_pre hp]; exact .inr ⟨_, rfl, rfl⟩
  | sync0 => rw [sequencerStep_sync0 hp]; exact .inr ⟨_, rfl, rfl⟩
  | padPre => rw [sequencerStep_padPre hp]; exact .inr ⟨_, rfl, rfl⟩
  | addrW => rw [sequencerStep_addrW hp]; exact .inr ⟨_, rfl, rfl⟩
  | msg =>
    rw [sequencerStep_msg hp]
    unfold msgStep
    split
    · exact byteStep_emitsAtMostOneWord hi hp
    · split
      · exact .inr ⟨_, rfl, rfl⟩
      · exact .inl (leaveStep_output s)
  | msync => rw [sequencerStep_msync hp]; exact .inr ⟨_, rfl, rfl⟩
  | tail => rw [sequencerStep_tail hp]; exact .inr ⟨_, rfl, rfl⟩
  | padPost =>
    by_cases hg : s.gcnt = 0#5
    · rw [sequencerStep_finish hp hg]; exact .inl ⟨rfl, rfl⟩
    · rw [sequencerStep_padPost hp hg]; exact .inr ⟨_, rfl, rfl⟩

/-- A move of the host that does not let the core step leaves `OUT`. -/
theorem hostMove_out {m : HostMove} {t : State} (hq : m ≠ .quiet) (ha : m ≠ .awaitIdle) (h : hostMove m s = .next t) :
    t.out = s.out := by
  cases m with
  | write r v =>
    cases r with
    | cmd =>
      change writeCmd v s = .next t at h
      unfold writeCmd at h
      split at h
      · obtain ⟨-, hout, -⟩ := exec_frame h
        exact hout
      · cases h; rfl
    | mlen => cases h; rw [writeMlen_frame]
    | status | r0 | r1 | ocnt => cases h; rfl
  | placeMsg i b => obtain rfl := eq_of_placeMsg h; rfl
  | read | reset => cases h; rfl
  | quiet => exact absurd rfl hq
  | awaitIdle => exact absurd rfl ha

end

/-- Settles O33: a step emits at most one word, which `read?_emit_of_lt` and `read?_emit_of_outside` place. -/
theorem outputIsAppendOnly : Obligations.OutputIsAppendOnly := by
  refine ⟨fun s hi hroom => ?_, fun m s t hq ha h => hostMove_out hq ha h⟩
  rcases sequencerStep_emitsAtMostOneWord hi with ⟨hocnt, hout⟩ | ⟨w, hocnt, hout⟩
  · exact .inl ⟨hocnt, fun j => by rw [hout]⟩
  · rw [hocnt, hout]
    exact .inr ⟨ocnt_add_four hroom, ⟨w, fun k hk => read?_emit_of_lt w (by omega) hk⟩,
      fun j hj => read?_emit_of_outside w (by omega) hj⟩

end Sys2Proof.Machine

namespace Sys2Proof.Machine

/-! ## Termination (R216) -/

/-- What the packer has left to do: a byte step may leave bits to flush and may call for a Sync, and so may the flush. -/
def packerMeasure (s : State) : Nat := 4 * (s.mlen.toNat - s.cidx.toNat) + if s.nbits = 0#5 then 0 else 2

/-- A number that every step of a running command lowers. -/
def runMeasure (s : State) : Nat :=
  match s.ph with
  | .idle => 0
  | .padPost => 1 + (17 - s.gcnt.toNat) % 17
  | .tail => 18
  | .msg => 19 + packerMeasure s
  | .msync => 20 + packerMeasure s
  | .addrW => 21 + packerMeasure s
  | .padPre => 21 + packerMeasure s + s.padn.toNat
  | .sync0 => 29 + packerMeasure s
  | .pre => 29 + packerMeasure s + (18 - s.pcnt.toNat)

section

variable {s : State}

theorem packerMeasure_eq {t : State} (hmlen : t.mlen = s.mlen) (hcidx : t.cidx = s.cidx) (hnbits : t.nbits = s.nbits) :
    packerMeasure t = packerMeasure s := by
  rw [packerMeasure, packerMeasure, hmlen, hcidx, hnbits]

theorem packerMeasure_bounds (s : State) :
    4 * (s.mlen.toNat - s.cidx.toNat) ≤ packerMeasure s ∧ packerMeasure s ≤ 4 * (s.mlen.toNat - s.cidx.toNat) + 2 := by
  unfold packerMeasure
  split <;> omega

theorem packerMeasure_of_nbits_ne (h : s.nbits ≠ 0#5) : packerMeasure s = 4 * (s.mlen.toNat - s.cidx.toNat) + 2 := by
  rw [packerMeasure, if_neg h]

theorem packerMeasure_of_nbits_eq (h : s.nbits = 0#5) : packerMeasure s = 4 * (s.mlen.toNat - s.cidx.toNat) := by
  rw [packerMeasure, if_pos h, Nat.add_zero]

theorem runMeasure_le_of_packer (hp : s.ph = .msg ∨ s.ph = .msync) : runMeasure s ≤ 20 + packerMeasure s := by
  rcases hp with hp | hp
  · rw [runMeasure, hp]
    exact Nat.add_le_add_right (by decide) _
  · rw [runMeasure, hp]

theorem toNat_cidx_succ (hc : s.cidx.toNat < s.mlen.toNat) : (s.cidx + 1#Config.lenW).toNat = s.cidx.toNat + 1 := by
  have hlt := s.mlen.isLt
  rw [BitVec.toNat_add]
  exact Nat.mod_eq_of_lt (Nat.lt_of_le_of_lt hc hlt)

/-- The packer's work: a byte less to read outweighs the bits and the Sync it may leave; so does a flush done. -/
theorem runMeasure_packer_step (hi : Inv s) (hp : s.ph = .msg) (hw : s.cidx ≠ s.mlen ∨ s.nbits ≠ 0#5) :
    runMeasure (sequencerStep s) < 19 + packerMeasure s := by
  have hph : (sequencerStep s).ph = .msg ∨ (sequencerStep s).ph = .msync := by
    rw [sequencerStep_ph_of_msg hi hp hw]
    split
    · exact .inl rfl
    · exact .inr rfl
  have hle := runMeasure_le_of_packer hph
  obtain ⟨-, hupper⟩ := packerMeasure_bounds (sequencerStep s)
  obtain ⟨hlower, -⟩ := packerMeasure_bounds s
  obtain ⟨-, -, hmlen, -⟩ := sequencerStep_frame s
  have hcidx := sequencerStep_cidx s
  by_cases hc : s.cidx.toNat < s.mlen.toNat
  · rw [if_pos ⟨hp, hc⟩] at hcidx
    rw [hmlen, hcidx, toNat_cidx_succ hc] at hupper
    omega
  · rw [if_neg fun h => hc h.2] at hcidx
    have hn : s.nbits ≠ 0#5 := hw.resolve_left fun h => hc (hi.cidx_lt_of_ne hp h)
    have hzero : (sequencerStep s).nbits = 0#5 := by
      rw [sequencerStep_flush hp (Nat.le_of_not_lt hc) (Nat.pos_of_ne_zero (toNat_ne_zero5 hn)), flushStep_eq]
    rw [packerMeasure_of_nbits_eq hzero, hmlen, hcidx] at hle
    rw [packerMeasure_of_nbits_ne hn]
    omega

/-- Every step of a running command lowers its measure. -/
theorem runMeasure_step_lt (hi : Inv s) (h : s.ph ≠ .idle) : runMeasure (sequencerStep s) < runMeasure s := by
  have hf := hi.phase
  have hkeep (hp : s.ph ≠ .msg) : packerMeasure (sequencerStep s) = packerMeasure s := by
    obtain ⟨-, -, hmlen, -⟩ := sequencerStep_frame s
    obtain ⟨hcidx, -, hnbits⟩ := sequencerStep_packer hp
    exact packerMeasure_eq hmlen hcidx hnbits
  cases hp : s.ph with
  | idle => exact absurd hp h
  | pre =>
    simp only [PhaseFacts, hp] at hf
    obtain ⟨-, -, -, -, -, -, -, -, hle⟩ := hf
    have hm := hkeep (hp.trans_ne nofun)
    have hsucc := toNat_succ5 (n := s.pcnt) (by omega)
    rw [sequencerStep_pre hp] at hm ⊢
    by_cases hlast : s.pcnt.toNat + 1 = 18
    · simp only [runMeasure, hp, if_pos hlast] at hm ⊢
      omega
    · simp only [runMeasure, hp, if_neg hlast, hsucc] at hm ⊢
      omega
  | sync0 =>
    have hpadn := hi.bounds.padn_le
    have hm := hkeep (hp.trans_ne nofun)
    rw [sequencerStep_sync0 hp] at hm ⊢
    by_cases hz : s.padn = 0#3
    · simp only [runMeasure, hp, if_pos hz] at hm ⊢
      omega
    · simp only [runMeasure, hp, if_neg hz, emit_padn] at hm ⊢
      omega
  | padPre =>
    simp only [PhaseFacts, hp] at hf
    obtain ⟨-, -, -, -, -, -, hz, -⟩ := hf
    obtain ⟨hpred, hpos⟩ := toNat_pred3 hz
    have hm := hkeep (hp.trans_ne nofun)
    rw [sequencerStep_padPre hp] at hm ⊢
    by_cases hlast : s.padn - 1#3 = 0#3
    · simp only [runMeasure, hp, if_pos hlast] at hm ⊢
      omega
    · simp only [runMeasure, hp, if_neg hlast, hpred] at hm ⊢
      omega
  | addrW =>
    have hm := hkeep (hp.trans_ne nofun)
    rw [sequencerStep_addrW hp] at hm ⊢
    simp only [runMeasure, hp] at hm ⊢
    omega
  | msg =>
    rw [show runMeasure s = 19 + packerMeasure s by rw [runMeasure, hp]]
    by_cases hw : s.cidx ≠ s.mlen ∨ s.nbits ≠ 0#5
    · exact runMeasure_packer_step hi hp hw
    · obtain ⟨hc, hn⟩ := not_or.1 hw
      obtain ⟨henc, hpack⟩ := sequencerStep_of_packed hp (not_not.1 hc) (not_not.1 hn)
      rcases hi.op_of_packer (.inl hp) with hop | hop
      · rw [hpack hop]
        simp only [runMeasure, complete_ph]
        omega
      · rw [henc hop]
        simp only [runMeasure]
        omega
  | msync =>
    have hm := hkeep (hp.trans_ne nofun)
    rw [sequencerStep_msync hp] at hm ⊢
    simp only [runMeasure, hp] at hm ⊢
    omega
  | tail =>
    rw [sequencerStep_tail hp]
    simp only [runMeasure, hp]
    omega
  | padPost =>
    have hle := hi.bounds.gcnt_le
    by_cases hg : s.gcnt = 0#5
    · rw [sequencerStep_finish hp hg]
      simp only [runMeasure, hp, complete_ph]
      omega
    · have hpos := toNat_ne_zero5 hg
      have hnext := toNat_nextGroupCount s.gcnt
      rw [sequencerStep_padPost hp hg]
      simp only [runMeasure, emit_ph, hp, hnext]
      omega

/-- The step that ends a run sets `DONE` (R32). -/
theorem completed_of_idle (h : s.ph ≠ .idle) (hidle : (sequencerStep s).ph = .idle) : Completed (sequencerStep s) := by
  refine ⟨hidle, ?_⟩
  rw [(sequencerStep_completesOrKeepsDone h).done_eq, if_pos hidle]

theorem exists_completed (n : Nat) (hn : runMeasure s ≤ n) (hi : Inv s) (h : s.ph ≠ .idle) :
    ∃ k, Completed (sequencerStep^[k] s) := by
  induction n generalizing s with
  | zero => exact absurd (runMeasure_step_lt hi h) (by omega)
  | succ n ih =>
    by_cases hidle : (sequencerStep s).ph = .idle
    · exact ⟨1, completed_of_idle h hidle⟩
    · obtain ⟨k, hk⟩ := ih (by have := runMeasure_step_lt hi h; omega) (sequencerStep_inv s hi) hidle
      exact ⟨k + 1, hk⟩

end

/-- Settles O48, by induction on the measure, which every step lowers and no step lets the invariant go. -/
theorem everyRunEnds : Obligations.EveryRunEnds := by
  intro s hi hh h
  obtain ⟨k, hk⟩ := exists_completed _ le_rfl hi h
  exact ⟨k, _, runSteps_of_no_move k hh, hk⟩

end Sys2Proof.Machine

namespace Sys2Proof.Machine

/-! ## The laws of `CRC10` (R101) -/

theorem payloadCrc_right_injective (p : BitVec 21) : Function.Injective (payloadCrc p) :=
  Function.LeftInverse.injective (g := BitVec.extractLsb' 0 10) (extractLsb'_payloadCrc_low p)

/-- A constant added under a condition: the two conditions add up as the words do. -/
theorem ite_xor_add {n : Nat} (x y c : BitVec n) (a b : Bool) :
    (if a ^^ b then x ^^^ y ^^^ c else x ^^^ y) = (if a then x ^^^ c else x) ^^^ (if b then y ^^^ c else y) := by
  cases a <;> cases b
  · rfl
  · exact BitVec.xor_assoc x y c
  · show x ^^^ y ^^^ c = x ^^^ c ^^^ y
    ac_rfl
  · have hcancel : x ^^^ c ^^^ (y ^^^ c) = x ^^^ y ^^^ (c ^^^ c) := by ac_rfl
    show x ^^^ y = x ^^^ c ^^^ (y ^^^ c)
    rw [hcancel, BitVec.xor_self, BitVec.xor_zero]

/-- A loop whose step is linear in a parameter and in what it carries along is linear in both. -/
theorem foldl_xor_both {α : Type} {n m : Nat} {f : BitVec n → BitVec m → α → BitVec m}
    (h : ∀ p q r s k, f (p ^^^ q) (r ^^^ s) k = f p r k ^^^ f q s k) (l : List α) (p q : BitVec n) (r s : BitVec m) :
    l.foldl (f (p ^^^ q)) (r ^^^ s) = l.foldl (f p) r ^^^ l.foldl (f q) s := by
  induction l generalizing r s with
  | nil => rfl
  | cons k l ih => rw [List.foldl_cons, List.foldl_cons, List.foldl_cons, h, ih]

/-- One term of the product of `GEN` and `q`. -/
def addGenTerm (q : BitVec 21) (acc : BitVec 31) (i : Nat) : BitVec 31 :=
  if q.getLsbD i then acc ^^^ (Config.gen.setWidth 31 <<< i) else acc

theorem addGenTerm_xor (p q : BitVec 21) (r s : BitVec 31) (i : Nat) :
    addGenTerm (p ^^^ q) (r ^^^ s) i = addGenTerm p r i ^^^ addGenTerm q s i := by
  rw [addGenTerm, BitVec.getLsbD_xor, ite_xor_add, ← addGenTerm, ← addGenTerm]

theorem genMultiple_linear : Linear genMultiple := fun p q => foldl_xor_both addGenTerm_xor _ p q 0#31 0#31

theorem crc10_linear : Linear crc10 := by
  intro p q
  rw [crc10, show (0#10 : BitVec 10) = 0#10 ^^^ 0#10 from rfl, payloadCrc_xor, crcDivide_linear, BitVec.extractLsb'_xor]
  rfl

/-- Dividing a payload with ten zero bits below it leaves its CRC alone. -/
theorem crcDivide_payloadCrc_zero (p : BitVec 21) : crcDivide (payloadCrc p 0#10) = payloadCrc 0#21 (crc10 p) := by
  refine Linear.ext (f := fun p => crcDivide (payloadCrc p 0#10)) (g := fun p => payloadCrc 0#21 (crc10 p)) ?_ ?_ ?_ p
  · intro x y
    exact (congrArg crcDivide (payloadCrc_xor x y 0#10 0#10)).trans (crcDivide_linear _ _)
  · intro x y
    dsimp only
    rw [crc10_linear]
    exact payloadCrc_xor 0#21 0#21 _ _
  · decide +kernel

/-- The division has no column for the ten low bits. -/
theorem crcDivide_zero_payloadCrc (r : BitVec 10) : crcDivide (payloadCrc 0#21 r) = payloadCrc 0#21 r := by
  refine Linear.ext (f := fun r => crcDivide (payloadCrc 0#21 r)) (g := payloadCrc 0#21) ?_ ?_ ?_ r
  · intro x y
    exact (congrArg crcDivide (payloadCrc_xor 0#21 0#21 x y)).trans (crcDivide_linear _ _)
  · exact payloadCrc_xor 0#21 0#21
  · decide +kernel

/-- The remainder of `p ‖ r` is the difference between `r` and `CRC10(p)`. -/
theorem crcDivide_payloadCrc (p : BitVec 21) (r : BitVec 10) :
    crcDivide (payloadCrc p r) = payloadCrc 0#21 (crc10 p ^^^ r) := by
  calc crcDivide (payloadCrc p r)
    _ = crcDivide (payloadCrc p 0#10 ^^^ payloadCrc 0#21 r) := by
      rw [← payloadCrc_xor, BitVec.xor_zero, BitVec.zero_xor]
    _ = payloadCrc 0#21 (crc10 p) ^^^ payloadCrc 0#21 r := by
      rw [crcDivide_linear, crcDivide_payloadCrc_zero, crcDivide_zero_payloadCrc]
    _ = payloadCrc 0#21 (crc10 p ^^^ r) := (payloadCrc_xor 0#21 0#21 _ _).symm

theorem crcDivide_genMultiple (q : BitVec 21) : crcDivide (genMultiple q) = 0#31 := by
  refine Linear.ext (f := fun q => crcDivide (genMultiple q)) (g := fun _ => 0#31) ?_ ?_ ?_ q
  · intro x y
    exact (congrArg crcDivide (genMultiple_linear x y)).trans (crcDivide_linear _ _)
  · exact fun _ _ => (BitVec.xor_self (x := 0#31)).symm
  · decide +kernel

theorem genMultiple_twoPow : ∀ i < 21, genMultiple (BitVec.twoPow 21 i) = Config.gen.setWidth 31 <<< i := by
  decide +kernel

/-- The two words differ by a multiple of `GEN`. -/
def Congruent (x y : BitVec 31) : Prop := ∃ q, y = x ^^^ genMultiple q

theorem Congruent.crcColumn {x y : BitVec 31} (h : Congruent x y) (col : Nat) : Congruent x (crcColumn y col) := by
  obtain ⟨q, rfl⟩ := h
  unfold Machine.crcColumn
  split
  · refine ⟨q ^^^ BitVec.twoPow 21 (20 - col), ?_⟩
    rw [genMultiple_linear, genMultiple_twoPow _ (by omega), BitVec.xor_assoc]
  · exact ⟨q, rfl⟩

/-- The division takes away multiples of `GEN` alone. -/
theorem congruent_crcDivide (x : BitVec 31) : Congruent x (crcDivide x) :=
  List.foldlRecOn (motive := Congruent x) (List.range 21) crcColumn ⟨0#21, by rw [genMultiple_linear.zero, BitVec.xor_zero]⟩
    fun _ h col _ => h.crcColumn col

/-- A word without remainder is a multiple of `GEN`. -/
theorem exists_genMultiple_eq {x : BitVec 31} (h : crcDivide x = 0#31) : ∃ q, genMultiple q = x := by
  obtain ⟨q, hq⟩ := congruent_crcDivide x
  refine ⟨q, ?_⟩
  rw [h] at hq
  exact (BitVec.xor_eq_zero_iff.1 hq.symm).symm

theorem crcDivide_payloadCrc_crc10 (p : BitVec 21) : crcDivide (payloadCrc p (crc10 p)) = 0#31 := by
  rw [crcDivide_payloadCrc, BitVec.xor_self]
  rfl

theorem exists_genMultiple_eq_payloadCrc_iff (p : BitVec 21) (r : BitVec 10) :
    (∃ q, genMultiple q = payloadCrc p r) ↔ r = crc10 p := by
  constructor
  · rintro ⟨q, hq⟩
    have hzero : payloadCrc 0#21 (crc10 p ^^^ r) = payloadCrc 0#21 0#10 := by
      rw [← crcDivide_payloadCrc, ← hq, crcDivide_genMultiple]
      rfl
    exact (BitVec.xor_eq_zero_iff.1 (payloadCrc_right_injective _ hzero)).symm
  · rintro rfl
    exact exists_genMultiple_eq (crcDivide_payloadCrc_crc10 p)

theorem bxor_bxor_bxor_comm (a b c d : Bool) : ((a ^^ b) ^^ (c ^^ d)) = ((a ^^ c) ^^ (b ^^ d)) := by
  rw [Bool.xor_assoc, Bool.xor_left_comm b, ← Bool.xor_assoc]

/-- A step of the bit-serial form is linear in payload and register together. -/
theorem crcSerialStep_xor (p q : BitVec 21) (r s : BitVec 10) (k : Nat) :
    crcSerialStep (p ^^^ q) (r ^^^ s) k = crcSerialStep p r k ^^^ crcSerialStep q s k := by
  have hfb : ((r ^^^ s).getLsbD 9 ^^ (p ^^^ q).getLsbD k) =
      ((r.getLsbD 9 ^^ p.getLsbD k) ^^ (s.getLsbD 9 ^^ q.getLsbD k)) := by
    rw [BitVec.getLsbD_xor, BitVec.getLsbD_xor, bxor_bxor_bxor_comm]
  rw [crcSerialStep, hfb, BitVec.shiftLeft_xor_distrib, ite_xor_add, ← crcSerialStep, ← crcSerialStep]

theorem crc10Serial_linear : Linear crc10Serial := fun p q => foldl_xor_both crcSerialStep_xor _ p q 0#10 0#10

theorem crc10Serial_eq (p : BitVec 21) : crc10Serial p = crc10 p :=
  Linear.ext crc10Serial_linear crc10_linear (by decide +kernel) p

/-- Settles O6: the division takes away multiples of `GEN` alone and is linear, so it is fixed by its values on the one-bit
words; so is the bit-serial form. -/
theorem crcDivisionLaws : Obligations.CrcDivisionLaws :=
  ⟨exists_genMultiple_eq_payloadCrc_iff, crcDivide_payloadCrc_crc10, crc10_linear, crc10Serial_eq⟩

/-! ## The laws of `ASSEMBLE` (R105) -/

/-- The parity of a word of 31 bits, as a number. -/
theorem popcount_add_par31 (v : BitVec 31) : (popcount v + (par31 v).toNat) % 2 = 0 := by
  have h := parityIsPopcountModTwo v
  cases hp : par31 v with
  | false =>
    rw [hp] at h
    have := mt h.2 Bool.false_ne_true
    simp only [Bool.toNat_false]
    omega
  | true =>
    have := h.1 hp
    simp only [Bool.toNat_true]
    omega

theorem popcount_withParity (v : BitVec 31) : popcount (withParity v) = popcount v + (par31 v).toNat := by
  have hbits : (withParity v).getLsbD ∘ Nat.succ = v.getLsbD := funext fun i => getLsbD_withParity v (i + 1)
  have hparity : (withParity v).getLsbD 0 = par31 v := getLsbD_withParity v 0
  rw [popcount, List.range_succ_eq_map, List.countP_cons, List.countP_map, hbits, hparity, popcount]
  cases par31 v <;> rfl

theorem popcount_assemble (p : BitVec 21) : popcount (assemble p) % 2 = 0 := by
  rw [assemble, popcount_withParity, popcount_add_par31]

/-- The XOR-fold of a bitwise XOR. -/
theorem foldl_bxor_bxor {α : Type} (f g : α → Bool) (l : List α) (a b : Bool) :
    l.foldl (fun q i => q ^^ (f i ^^ g i)) (a ^^ b) =
      (l.foldl (fun q i => q ^^ f i) a ^^ l.foldl (fun q i => q ^^ g i) b) := by
  induction l generalizing a b with
  | nil => rfl
  | cons i l ih =>
    rw [List.foldl_cons, List.foldl_cons, List.foldl_cons, bxor_bxor_bxor_comm, ih]

theorem par31_xor (v w : BitVec 31) : par31 (v ^^^ w) = (par31 v ^^ par31 w) := by
  simp only [par31, BitVec.getLsbD_xor]
  exact foldl_bxor_bxor v.getLsbD w.getLsbD _ false false

theorem withParity_xor (v w : BitVec 31) : withParity (v ^^^ w) = withParity v ^^^ withParity w := by
  apply BitVec.eq_of_getLsbD_eq
  intro i _
  rw [BitVec.getLsbD_xor, getLsbD_withParity, getLsbD_withParity, getLsbD_withParity, par31_xor, BitVec.getLsbD_xor]
  split <;> rfl

theorem assemble_linear : Linear assemble := by
  intro p q
  rw [assemble, crc10_linear, payloadCrc_xor, withParity_xor]
  rfl

/-- The payload field of a codeword gives its payload back, so a word is a codeword exactly when its own payload field
assembles to it. -/
theorem exists_assemble_eq_iff (w : Word) : (∃ p, assemble p = w) ↔ assemble (w.extractLsb' 11 21) = w := by
  refine ⟨?_, fun h => ⟨_, h⟩⟩
  rintro ⟨p, rfl⟩
  rw [extractLsb'_assemble]

theorem assemble_injective : Function.Injective assemble :=
  Function.LeftInverse.injective (g := BitVec.extractLsb' 11 21) extractLsb'_assemble

theorem assemble_syncPayload : assemble 0x0F9A42#21 = Config.sync := by decide +kernel

theorem assemble_idlePayload : assemble 0x0F5138#21 = Config.idle := by decide +kernel

/-- Settles O9: the parity bit makes the number of set bits even, the payload field gives the payload back, and each of the
three fields is linear. -/
theorem assemblerLaws : Obligations.AssemblerLaws :=
  ⟨popcount_assemble, extractLsb'_assemble, fun _ _ h => assemble_injective h, assemble_linear, exists_assemble_eq_iff,
    ⟨_, assemble_syncPayload⟩, ⟨_, assemble_idlePayload⟩, fun ⟨p, hp⟩ => assemble_ne_preambleWord p hp⟩

end Sys2Proof.Machine

namespace Sys2Proof.Machine

/-! ## `PACK_TEXT` as a run of codewords (R122, R123) -/

/-- Whatever a codeword keeps of the words and the word position, `PACK_TEXT` keeps. -/
theorem packing_induction {P : List Word → Nat → Prop} {w0 : Nat} (h0 : P [] w0)
    (hstep : ∀ (p : Packing) (field : BitVec 20), P p.out p.wpos → P (p.codeword field).out (p.codeword field).wpos)
    (msg : List Byte) : P (packing w0 msg).out (packing w0 msg).wpos := by
  have hbit (p : Packing) (b : Bool) (h : P p.out p.wpos) : P (p.bit b).out (p.bit b).wpos := by
    unfold Packing.bit
    split
    · exact hstep p _ h
    · exact h
  have hchar (p : Packing) (c : Byte) (h : P p.out p.wpos) : P (p.char c).out (p.char c).wpos :=
    List.foldlRecOn (motive := fun q => P q.out q.wpos) (charBits c) Packing.bit h fun q hq b _ => hbit q b hq
  have hmsg : P (msg.foldl Packing.char { out := [], acc := 0#20, n := 0, wpos := w0 }).out
      (msg.foldl Packing.char { out := [], acc := 0#20, n := 0, wpos := w0 }).wpos :=
    List.foldlRecOn (motive := fun q => P q.out q.wpos) msg Packing.char h0 fun q hq c _ => hchar q c hq
  unfold packing Packing.flush
  split
  · exact hmsg
  · exact hstep _ _ hmsg

/-- The words and the word position after a codeword (R122, R123). -/
theorem Packing.codeword_cases (p : Packing) (field : BitVec 20) :
    (p.wpos + 1 = 16 ∧ (p.codeword field).out = p.out ++ [messageCodeword field, Config.sync] ∧
      (p.codeword field).wpos = 0) ∨
    (p.wpos + 1 ≠ 16 ∧ (p.codeword field).out = p.out ++ [messageCodeword field] ∧
      (p.codeword field).wpos = p.wpos + 1) := by
  rw [Packing.codeword_eq]
  by_cases h : p.wpos + 1 = 16
  · rw [if_pos h, if_pos h]
    exact .inl ⟨h, rfl, rfl⟩
  · rw [if_neg h, if_neg h]
    exact .inr ⟨h, rfl, rfl⟩

/-- The numbers of `PACK_TEXT` at its end (R125). -/
theorem packing_numbers (msg : List Byte) {w0 : Nat} (hw : w0 < 16) :
    (packing w0 msg).n = 0 ∧ (packing w0 msg).acc = 0#20 ∧ (packing w0 msg).wpos = wposAfter w0 msg.length ∧
    (packText w0 msg).length = messageWords msg.length + (w0 + messageWords msg.length) / 16 := by
  obtain ⟨hn, hwpos, hlen, hacc⟩ := foldl_char_numbers msg w0 hw
  rw [packText, packing, wposAfter, messageWords, Config.batchWords]
  generalize msg.foldl Packing.char { out := [], acc := 0#20, n := 0, wpos := w0 } = p at *
  unfold Packing.flush
  by_cases hz : p.n = 0
  · have hacc0 : p.acc = 0#20 := by
      rw [hz] at hacc
      exact BitVec.eq_of_toNat_eq (Nat.lt_one_iff.1 hacc)
    have hm : (7 * msg.length + 19) / 20 = 7 * msg.length / 20 := by omega
    rw [if_pos hz, hm]
    exact ⟨hz, hacc0, hwpos, hlen⟩
  · have hm : (7 * msg.length + 19) / 20 = 7 * msg.length / 20 + 1 := by omega
    rw [if_neg hz, hm]
    have hfields : (p.codeword (flushField p.acc p.n)).n = 0 ∧ (p.codeword (flushField p.acc p.n)).acc = 0#20 := by
      rw [Packing.codeword_eq]
      exact ⟨rfl, rfl⟩
    obtain ⟨hn0, hacc0⟩ := hfields
    rcases p.codeword_cases (flushField p.acc p.n) with ⟨h16, hout, hwp⟩ | ⟨h16, hout, hwp⟩
    · rw [hout, hwp, List.length_append, List.length_cons, List.length_singleton]
      exact ⟨hn0, hacc0, by omega, by omega⟩
    · rw [hout, hwp, List.length_append, List.length_singleton]
      exact ⟨hn0, hacc0, by omega, by omega⟩

theorem messageCodeword_ne_sync (field : BitVec 20) : messageCodeword field ≠ Config.sync :=
  ne_of_getLsbD_ne 31 ((getLsbD_messageCodeword_flag field).trans_ne (by decide))

/-! ## Where the Syncs stand (R123) -/

/-- From word position `w0`, the Syncs of these words stand exactly where a batch has been filled. -/
def SyncsAt (w0 : Nat) (ws : List Word) : Prop :=
  ∀ (i : Nat) (w : Word), ws[i]? = some w → (w = Config.sync ↔ (w0 + i) % 17 = 16)

theorem SyncsAt.nil (w0 : Nat) : SyncsAt w0 [] := fun _ _ h => nomatch h

theorem SyncsAt.append {w0 : Nat} {xs ys : List Word} (hx : SyncsAt w0 xs) (hy : SyncsAt (w0 + xs.length) ys) :
    SyncsAt w0 (xs ++ ys) := by
  intro i w h
  by_cases hi : i < xs.length
  · rw [List.getElem?_append_left hi] at h
    exact hx i w h
  · rw [List.getElem?_append_right (Nat.le_of_not_lt hi)] at h
    rw [hy _ w h]
    omega

theorem SyncsAt.singleton {w0 : Nat} {w : Word} (h : w = Config.sync ↔ w0 % 17 = 16) : SyncsAt w0 [w] := by
  intro i v hv
  obtain ⟨hi, rfl⟩ := List.getElem?_eq_some_iff.1 hv
  obtain rfl : i = 0 := Nat.lt_one_iff.1 hi
  exact h

/-- Words other than Syncs may stand anywhere within a batch. -/
theorem SyncsAt.replicate {w0 n : Nat} {w : Word} (hw : w ≠ Config.sync) (h : w0 % 17 + n ≤ 16) :
    SyncsAt w0 (List.replicate n w) := by
  intro i v hv
  obtain ⟨hi, rfl⟩ := List.getElem?_eq_some_iff.1 hv
  rw [List.length_replicate] at hi
  rw [List.getElem_replicate]
  exact ⟨fun h => absurd h hw, fun h => absurd h (by omega)⟩

theorem packing_syncsAt (msg : List Byte) {w0 : Nat} (hw : w0 < 16) :
    SyncsAt w0 (packing w0 msg).out ∧ (packing w0 msg).wpos = (w0 + (packing w0 msg).out.length) % 17 ∧
      (packing w0 msg).wpos < 16 := by
  refine packing_induction (P := fun out wpos => SyncsAt w0 out ∧ wpos = (w0 + out.length) % 17 ∧ wpos < 16)
    ⟨SyncsAt.nil w0, by rw [List.length_nil]; omega, hw⟩ ?_ msg
  rintro p field ⟨hs, hwp, hlt⟩
  have hcode : SyncsAt (w0 + p.out.length) [messageCodeword field] :=
    .singleton ⟨fun h => absurd h (messageCodeword_ne_sync field), fun h => absurd h (by omega)⟩
  rcases p.codeword_cases field with ⟨h16, hout, hwp'⟩ | ⟨h16, hout, hwp'⟩
  · have hsync : SyncsAt (w0 + p.out.length + 1) [Config.sync] := .singleton ⟨fun _ => by omega, fun _ => rfl⟩
    rw [hout, hwp', List.length_append]
    refine ⟨hs.append (hcode.append hsync), ?_, by decide⟩
    rw [List.length_cons, List.length_singleton]
    omega
  · rw [hout, hwp', List.length_append, List.length_singleton]
    exact ⟨hs.append hcode, by omega, by omega⟩

theorem packText_syncsAt (msg : List Byte) {w0 : Nat} (hw : w0 < 16) : SyncsAt w0 (packText w0 msg) := by
  obtain ⟨hs, -⟩ := packing_syncsAt msg hw
  exact hs

theorem getLsbD_of_isPackedWord {w : Word} (h : IsPackedWord w) (hs : w ≠ Config.sync) : w.getLsbD 31 = true := by
  obtain ⟨field, rfl⟩ := h.resolve_left hs
  exact getLsbD_messageCodeword_flag field

/-- Settles O24: a codeword keeps Syncs where batches are filled, and what is no Sync is a message codeword. -/
theorem syncClosesEveryFilledBatch : Obligations.SyncClosesEveryFilledBatch := by
  intro w0 msg hw
  obtain ⟨-, -, -, hlen⟩ := packing_numbers msg hw
  refine ⟨hlen, fun i w h => ?_⟩
  have hsync := packText_syncsAt msg hw i w h
  split
  · exact hsync.2 ‹_›
  · exact getLsbD_of_isPackedWord (packText_isPackedWord w0 msg w (List.mem_of_getElem? h)) (mt hsync.1 ‹_›)

/-! ## How many codewords and Syncs (R125) -/

/-- The words counted by their flag: every 16 words that are no Syncs are followed by one. -/
theorem packing_counts (msg : List Byte) (w0 : Nat) :
    w0 + (packing w0 msg).out.countP (fun w => w.getLsbD 31) =
      16 * (packing w0 msg).out.count Config.sync + (packing w0 msg).wpos ∧
    (packing w0 msg).out.countP (fun w => w.getLsbD 31) + (packing w0 msg).out.count Config.sync =
      (packing w0 msg).out.length := by
  refine packing_induction
    (P := fun out wpos => w0 + out.countP (fun w => w.getLsbD 31) = 16 * out.count Config.sync + wpos ∧
      out.countP (fun w => w.getLsbD 31) + out.count Config.sync = out.length) ⟨by simp, by simp⟩ ?_ msg
  rintro p field ⟨hpos, hlen⟩
  have hflag := getLsbD_messageCodeword_flag field
  have hne := messageCodeword_ne_sync field
  have hsync : Config.sync.getLsbD 31 = false := by decide
  rcases p.codeword_cases field with ⟨h16, hout, hwp⟩ | ⟨h16, hout, hwp⟩
  · rw [hout, hwp]
    simp only [List.countP_append, List.count_append, List.countP_cons, List.count_cons, List.length_append,
      List.length_cons, List.countP_nil, List.count_nil, List.length_nil, hflag, hsync, beq_iff_eq, hne, if_true, if_false,
      Bool.false_eq_true]
    omega
  · rw [hout, hwp]
    simp only [List.countP_append, List.count_append, List.countP_cons, List.count_cons, List.length_append,
      List.length_cons, List.countP_nil, List.count_nil, List.length_nil, hflag, beq_iff_eq, hne, if_true, if_false]
    omega

/-- Settles O25: the numbers at the end of the loop, with the two counts fixed by their sum and by the word position. -/
theorem packedTextCounts : Obligations.PackedTextCounts := by
  intro w0 msg hw
  obtain ⟨hn, -, hwpos, hlen⟩ := packing_numbers msg hw
  obtain ⟨hpos, htotal⟩ := packing_counts msg w0
  have hmod : wposAfter w0 msg.length = (w0 + messageWords msg.length) % 16 := rfl
  rw [packText] at hlen ⊢
  exact ⟨by omega, by omega, hwpos, hn⟩

/-! ## The bits of the message codewords (R121, R122, R124) -/

/-- The `n` bits held in an accumulator, first packed first. -/
def topBits (acc : BitVec 20) (n : Nat) : List Bool := (List.range n).map fun k => acc.getLsbD (n - 1 - k)

theorem getLsbD_appendBit (acc : BitVec 20) (b : Bool) {i : Nat} (h : i < 20) :
    (appendBit acc b).getLsbD i = if i = 0 then b else acc.getLsbD (i - 1) := by
  rw [appendBit, BitVec.getLsbD_or, BitVec.getLsbD_shiftLeft, BitVec.getLsbD_setWidth]
  rcases i with _ | i
  · simp
  · simp [h]

theorem topBits_appendBit (acc : BitVec 20) (b : Bool) {n : Nat} (h : n < 20) :
    topBits (appendBit acc b) (n + 1) = topBits acc n ++ [b] := by
  rw [topBits, List.range_succ, List.map_append, List.map_singleton, getLsbD_appendBit _ _ (by omega), if_pos (by omega)]
  congr 1
  apply List.map_congr_left
  intro k hk
  rw [List.mem_range] at hk
  rw [getLsbD_appendBit _ _ (by omega), if_neg (by omega)]
  congr 1
  omega

/-- The final field: the held bits and zeros below them (R124). -/
theorem topBits_flushField (acc : BitVec 20) {n : Nat} (h : n ≤ 20) :
    topBits (flushField acc n) 20 = topBits acc n ++ List.replicate (20 - n) false := by
  apply List.ext_getElem
  · simp [topBits]; omega
  · intro k hk _
    simp only [topBits, List.length_map, List.length_range] at hk
    rw [List.getElem_append]
    simp only [topBits, flushField, List.getElem_map, List.getElem_range, List.length_map, List.length_range,
      BitVec.getLsbD_shiftLeft, List.getElem_replicate]
    split
    · rw [decide_eq_true (by omega), decide_eq_false (by omega), Bool.not_false, Bool.and_true, Bool.true_and]
      congr 1
      omega
    · rw [decide_eq_true (show 20 - 1 - k < 20 - n by omega), Bool.not_true, Bool.and_false, Bool.false_and]

theorem dataBits_messageCodeword (field : BitVec 20) : dataBits (messageCodeword field) = topBits field 20 := by
  apply List.map_congr_left
  intro k hk
  rw [List.mem_range] at hk
  rw [messageCodeword, getLsbD_assemble_of_le _ (by omega), getLsbD_messagePayload, if_pos (by omega)]
  congr 1
  omega

/-- The data bits of message codewords, in order. -/
def codewordBits (ws : List Word) : List Bool := (ws.filter fun w => w.getLsbD 31).flatMap dataBits

/-- All that `PACK_TEXT` has packed so far: in its message codewords, then in its accumulator. -/
def Packing.bits (p : Packing) : List Bool := codewordBits p.out ++ topBits p.acc p.n

theorem codewordBits_append (xs ys : List Word) : codewordBits (xs ++ ys) = codewordBits xs ++ codewordBits ys := by
  rw [codewordBits, List.filter_append, List.flatMap_append, ← codewordBits, ← codewordBits]

/-- A message codeword brings the bits of its field, and a Sync after it none. -/
theorem codewordBits_message_cons (field : BitVec 20) {ws : List Word} (h : ws = [] ∨ ws = [Config.sync]) :
    codewordBits (messageCodeword field :: ws) = topBits field 20 := by
  have hrest : codewordBits ws = [] := by rcases h with rfl | rfl <;> rfl
  rw [codewordBits, List.filter_cons, if_pos (getLsbD_messageCodeword_flag field), List.flatMap_cons, ← codewordBits, hrest,
    List.append_nil, dataBits_messageCodeword]

theorem codewordBits_codeword (p : Packing) (field : BitVec 20) :
    codewordBits (p.codeword field).out = codewordBits p.out ++ topBits field 20 := by
  rcases p.codeword_cases field with ⟨-, hout, -⟩ | ⟨-, hout, -⟩
  · rw [hout, codewordBits_append, codewordBits_message_cons field (.inr rfl)]
  · rw [hout, codewordBits_append, codewordBits_message_cons field (.inl rfl)]

theorem Packing.n_codeword (p : Packing) (field : BitVec 20) : (p.codeword field).n = 0 := by
  rw [Packing.codeword_eq]

theorem Packing.bits_codeword (p : Packing) (field : BitVec 20) :
    (p.codeword field).bits = codewordBits p.out ++ topBits field 20 := by
  rw [Packing.bits, codewordBits_codeword, Packing.n_codeword]
  exact List.append_nil _

theorem Packing.n_bit_le (p : Packing) (b : Bool) (h : p.n ≤ 19) : (p.bit b).n ≤ 19 := by
  unfold Packing.bit
  split
  · rw [Packing.n_codeword]
    exact Nat.zero_le _
  · show p.n + 1 ≤ 19
    omega

/-- A packed bit comes after all that is packed. -/
theorem Packing.bits_bit (p : Packing) (b : Bool) (h : p.n ≤ 19) : (p.bit b).bits = p.bits ++ [b] := by
  have happend := topBits_appendBit p.acc b (n := p.n) (by omega)
  rw [show p.bits = codewordBits p.out ++ topBits p.acc p.n from rfl, List.append_assoc, ← happend]
  unfold Packing.bit
  split
  · rename_i h20
    rw [Packing.bits_codeword, h20]
  · rfl

theorem foldl_bit_bits (bs : List Bool) (p : Packing) (h : p.n ≤ 19) :
    (bs.foldl Packing.bit p).n ≤ 19 ∧ (bs.foldl Packing.bit p).bits = p.bits ++ bs := by
  induction bs generalizing p with
  | nil => exact ⟨h, (List.append_nil _).symm⟩
  | cons b bs ih =>
    obtain ⟨hn, hbits⟩ := ih (p.bit b) (p.n_bit_le b h)
    rw [Packing.bits_bit p b h, List.append_assoc] at hbits
    exact ⟨hn, hbits⟩

theorem foldl_char_bits (msg : List Byte) (p : Packing) (h : p.n ≤ 19) :
    (msg.foldl Packing.char p).n ≤ 19 ∧ (msg.foldl Packing.char p).bits = p.bits ++ msg.flatMap charBits := by
  induction msg generalizing p with
  | nil => exact ⟨h, (List.append_nil _).symm⟩
  | cons c msg ih =>
    obtain ⟨hn, hbits⟩ := foldl_bit_bits (charBits c) p h
    obtain ⟨hn', hbits'⟩ := ih (p.char c) hn
    rw [Packing.char, hbits, List.append_assoc, ← List.flatMap_cons] at hbits'
    exact ⟨hn', hbits'⟩

/-- The flush fills the last field with zeros. -/
theorem Packing.codewordBits_flush (p : Packing) (h : p.n ≤ 19) :
    codewordBits p.flush.out = p.bits ++ List.replicate (if p.n = 0 then 0 else 20 - p.n) false := by
  unfold Packing.flush
  by_cases hz : p.n = 0
  · rw [if_pos hz, if_pos hz, Packing.bits, hz]
    simp [topBits]
  · rw [if_neg hz, if_neg hz, codewordBits_codeword, topBits_flushField _ (by omega), ← List.append_assoc, Packing.bits]

theorem codewordBits_packText (msg : List Byte) {w0 : Nat} (hw : w0 < 16) :
    codewordBits (packText w0 msg) =
      msg.flatMap charBits ++ List.replicate (20 * messageWords msg.length - 7 * msg.length) false := by
  obtain ⟨hn, -⟩ := foldl_char_numbers msg w0 hw
  obtain ⟨hle, hbits⟩ := foldl_char_bits msg { out := [], acc := 0#20, n := 0, wpos := w0 } (Nat.zero_le _)
  rw [packText, packing, Packing.codewordBits_flush _ hle, hbits, hn]
  congr 2
  rw [messageWords]
  split <;> omega

theorem eq_messageCodeword_of_mem_packText {w0 : Nat} {msg : List Byte} {w : Word} (h : w ∈ packText w0 msg)
    (hflag : w.getLsbD 31 = true) : w = messageCodeword (w.extractLsb' 11 20) := by
  obtain ⟨field, rfl⟩ := (packText_isPackedWord w0 msg w h).resolve_left fun hs => by
    rw [hs] at hflag
    exact absurd hflag (by decide)
  have hfield : (messageCodeword field).extractLsb' 11 20 = field := by
    rw [messageCodeword, extractLsb'_assemble_payload, messagePayload]
    exact BitVec.extractLsb'_append_eq_right
  rw [hfield]

/-- Settles O23: each bit packed comes after those packed before, in the codewords and then in the accumulator, and the flush
moves what is held, with zeros, into the last codeword. -/
theorem packedFieldsAreTheBitStream : Obligations.PackedFieldsAreTheBitStream :=
  fun _ msg hw => ⟨codewordBits_packText msg hw, fun _ h hflag => eq_messageCodeword_of_mem_packText h hflag⟩

end Sys2Proof.Machine

namespace Sys2Proof.Machine

/-! ## Whole batches (R150, R162) -/

/-- The words of the sync region before its last padding, from the number `x` of words before the trailing Idle that are no
Syncs: address codeword and its padding, message codewords. -/
theorem groupPadding_region (x : Nat) :
    x + x / 16 + 2 + groupPadding (x + x / 16 + 2) = 17 * (x / 16 + 1) ∧ groupPadding (x + x / 16 + 2) ≤ 15 := by
  rw [groupPadding, Config.groupWords]
  omega

theorem predictedWordCount_eq_groups (a : BitVec 21) (n : Nat) :
    predictedWordCount a n = 18 + 17 * (((padCount a).toNat + 1 + messageWords n) / 16 + 1) := by
  rw [predictedWordCount_eq, roundUpToBatch, Config.batchWords]
  omega

section

variable (f : BitVec 2) (a : BitVec 21) (msg : List Byte)

theorem padCount_succ_lt : (padCount a).toNat + 1 < 16 := by
  have := toNat_padCount_le a
  omega

/-- The length of the sync region before its last padding (R150, steps 2 to 6). -/
theorem length_regionUnpadded :
    (regionUnpadded f a msg).length =
      (padCount a).toNat + 1 + messageWords msg.length + ((padCount a).toNat + 1 + messageWords msg.length) / 16 + 2 := by
  obtain ⟨-, -, -, hlen⟩ := packing_numbers msg (padCount_succ_lt a)
  simp only [regionUnpadded, List.length_append, List.length_singleton, List.length_replicate, hlen]
  omega

/-- The number of groups of 17 in a sync region. -/
def groupCount : Nat := ((padCount a).toNat + 1 + messageWords msg.length) / 16 + 1

theorem length_syncRegion : (syncRegion f a msg).length = 17 * groupCount a msg := by
  obtain ⟨hsum, -⟩ := groupPadding_region ((padCount a).toNat + 1 + messageWords msg.length)
  rw [syncRegion, List.length_append, List.length_replicate, length_regionUnpadded, hsum, groupCount]

theorem length_transmissionWords : (transmissionWords f a msg).length = predictedWordCount a msg.length := by
  rw [transmissionWords, List.length_append, List.length_replicate, length_syncRegion, predictedWordCount_eq_groups,
    groupCount, Config.preambleWords]

theorem groupPadding_regionUnpadded_le : groupPadding (regionUnpadded f a msg).length ≤ 15 := by
  obtain ⟨-, hle⟩ := groupPadding_region ((padCount a).toNat + 1 + messageWords msg.length)
  rw [length_regionUnpadded]
  exact hle

/-- A transmission in one line: the trailing Idle and the batch padding are Idle words alike (R150). -/
theorem transmissionWords_eq :
    transmissionWords f a msg =
      List.replicate 18 Config.preambleWord ++ [Config.sync] ++ List.replicate (padCount a).toNat Config.idle ++
        [addrCodeword f a] ++ packText ((padCount a).toNat + 1) msg ++
        List.replicate (1 + groupPadding (regionUnpadded f a msg).length) Config.idle := by
  simp only [transmissionWords, syncRegion, regionUnpadded, List.replicate_add, List.replicate_one, List.append_assoc,
    Config.preambleWords]

/-- Only the message codewords have the message flag (R79). -/
theorem countP_syncRegion : (syncRegion f a msg).countP (fun w => w.getLsbD 31) = messageWords msg.length := by
  obtain ⟨hcount, -⟩ := packedTextCounts _ msg (padCount_succ_lt a)
  have hidle : Config.idle.getLsbD 31 = false := by decide
  have hsync : Config.sync.getLsbD 31 = false := by decide
  simp only [syncRegion, regionUnpadded, List.countP_append, List.countP_replicate, List.countP_singleton, hidle, hsync,
    getLsbD_addrCodeword_flag, hcount, Bool.false_eq_true, if_false, Nat.zero_add, Nat.add_zero]

/-- An address codeword is no Sync when its flag differs from the two low payload bits of `SYNC`. -/
theorem addrCodeword_ne_sync (hf : f ≠ 2#2) : addrCodeword f a ≠ Config.sync := by
  intro h
  have hlow : (addrCodeword f a).extractLsb' 11 2 = f := by
    rw [addrCodeword, extractLsb'_assemble_payload, addrPayload]
    exact BitVec.extractLsb'_append_eq_right
  rw [h] at hlow
  exact hf (hlow.symm.trans (by decide))

/-- In a sync region a Sync starts every group of 17, and stands nowhere else. -/
theorem syncRegion_syncsAt (hf : f ≠ 2#2) : SyncsAt 16 (syncRegion f a msg) := by
  have hidle : Config.idle ≠ Config.sync := by decide
  have hpad := toNat_padCount_le a
  obtain ⟨-, -, -, hlen⟩ := packing_numbers msg (padCount_succ_lt a)
  obtain ⟨hsum, -⟩ := groupPadding_region ((padCount a).toNat + 1 + messageWords msg.length)
  have hwords := length_regionUnpadded f a msg
  rw [syncRegion, hwords, regionUnpadded]
  simp only [List.append_assoc]
  refine .append (.singleton (by decide)) (.append ?padding (.append ?addr (.append ?text ?tail)))
  all_goals simp only [List.length_singleton, List.length_replicate]
  case padding => exact .replicate hidle (by omega)
  case addr => exact .singleton ⟨fun h => absurd h (addrCodeword_ne_sync f a hf), fun h => absurd h (by omega)⟩
  case text =>
    intro i w h
    rw [packText_syncsAt msg (padCount_succ_lt a) i w h]
    omega
  case tail =>
    rw [hlen, ← List.replicate_one, ← List.replicate_add]
    exact .replicate hidle (by omega)

end

/-- Whole groups of 17 words with a Sync at the start of each: the Syncs cut them into batches of 16. -/
theorem SyncsAt.exists_groups (n : Nat) {ws : List Word} (hlen : ws.length = 17 * n) (h : SyncsAt 16 ws) :
    ∃ groups : List (List Word), groups.length = n ∧ (∀ g ∈ groups, g.length = 16 ∧ Config.sync ∉ g) ∧
      ws = groups.flatMap (fun g => Config.sync :: g) := by
  induction n generalizing ws with
  | zero => exact ⟨[], rfl, nofun, List.length_eq_zero_iff.1 hlen⟩
  | succ n ih =>
    cases ws with
    | nil => cases hlen
    | cons w ws =>
      rw [List.length_cons] at hlen
      obtain rfl : w = Config.sync := (h 0 w rfl).2 rfl
      have hrest : SyncsAt 16 (ws.drop 16) := by
        intro i v hv
        rw [List.getElem?_drop] at hv
        rw [h (16 + i + 1) v hv]
        omega
      obtain ⟨groups, hn, hgroups, heq⟩ := ih (by rw [List.length_drop]; omega) hrest
      refine ⟨ws.take 16 :: groups, by rw [List.length_cons, hn], ?_, ?_⟩
      · intro g hg
        rcases List.mem_cons.1 hg with rfl | hg
        · refine ⟨by rw [List.length_take]; omega, fun hmem => ?_⟩
          obtain ⟨i, hi, hw⟩ := List.getElem_of_mem hmem
          rw [List.length_take] at hi
          have hsome : (Config.sync :: ws)[i + 1]? = some Config.sync := by
            rw [List.getElem?_cons_succ, List.getElem?_eq_getElem (by omega), ← hw, List.getElem_take]
          have := (h (i + 1) Config.sync hsome).1 rfl
          omega
        · exact hgroups g hg
      · rw [List.flatMap_cons, ← heq, List.cons_append, List.take_append_drop]

/-- Settles O21: the Syncs of the sync region cut it into batches; its length and the padding are arithmetic; the message
codewords are those with the message flag. -/
theorem transmissionIsWholeBatches : Obligations.TransmissionIsWholeBatches := by
  intro f a msg hf
  refine ⟨?groups, length_transmissionWords f a msg,
    ⟨_, groupPadding_regionUnpadded_le f a msg, transmissionWords_eq f a msg⟩, ?count⟩
  case groups =>
    obtain ⟨groups, hn, hgroups, heq⟩ := (syncRegion_syncsAt f a msg hf).exists_groups _ (length_syncRegion f a msg)
    refine ⟨groups, fun hnil => ?_, hgroups, by rw [transmissionWords, heq, Config.preambleWords]⟩
    rw [hnil, groupCount] at hn
    cases hn
  case count =>
    rw [drop_transmissionWords]
    exact countP_syncRegion f a msg

end Sys2Proof.Machine

namespace Sys2Proof.Machine

/-! ## Runs of the sequencer -/

section

variable {s t : State}

/-- What no run of the sequencer writes. -/
theorem iterate_sequencerStep_frame (k : Nat) (s : State) :
    (sequencerStep^[k] s).op = s.op ∧ (sequencerStep^[k] s).a = s.a ∧ (sequencerStep^[k] s).mlen = s.mlen ∧
    (sequencerStep^[k] s).r0 = s.r0 ∧ (sequencerStep^[k] s).r1 = s.r1 ∧ (sequencerStep^[k] s).msg = s.msg := by
  induction k with
  | zero => exact ⟨rfl, rfl, rfl, rfl, rfl, rfl⟩
  | succ k ih =>
    obtain ⟨h1, h2, h3, h4, h5, h6⟩ := ih
    obtain ⟨g1, g2, g3, g4, g5, g6, -⟩ := sequencerStep_frame (sequencerStep^[k] s)
    rw [Function.iterate_succ_apply']
    exact ⟨g1.trans h1, g2.trans h2, g3.trans h3, g4.trans h4, g5.trans h5, g6.trans h6⟩

/-- An idle core stays as it is. -/
theorem iterate_sequencerStep_of_idle (k : Nat) (h : s.ph = .idle) : sequencerStep^[k] s = s :=
  Function.iterate_fixed (sequencerStep_idle h) k

/-- A run that is busy at some step was busy at every step before. -/
theorem iterate_ph_ne_idle {k n : Nat} (hk : k ≤ n) (hn : (sequencerStep^[n] s).ph ≠ .idle) :
    (sequencerStep^[k] s).ph ≠ .idle := by
  intro hidle
  obtain ⟨j, rfl⟩ := Nat.exists_eq_add_of_le' hk
  rw [Function.iterate_add_apply, iterate_sequencerStep_of_idle j hidle] at hn
  exact hn hidle

/-! ## The words emitted since the launch (R33, R151) -/

/-- `OUT[0..OCNT-1]` holds these words, serialised. -/
structure Emitted (ws : List Word) (s : State) : Prop where
  count : s.ocnt.toNat = 4 * ws.length
  bytes : s.outBytes = (ws.flatMap ser32).map some

theorem Emitted.congr {ws : List Word} (h : Emitted ws s) (hocnt : t.ocnt = s.ocnt) (hout : t.out = s.out) :
    Emitted ws t where
  count := by rw [hocnt]; exact h.count
  bytes := by rw [State.outBytes, hocnt, hout]; exact h.bytes

/-- Nothing is emitted yet. -/
theorem Emitted.nil (h : s.ocnt = 0#32) : Emitted [] s where
  count := by rw [h]; rfl
  bytes := by rw [State.outBytes, h]; rfl

/-- An emitted word comes after the others; there is room for far more than the longest output (R182). -/
theorem Emitted.emit {ws : List Word} (h : Emitted ws s) (w : Word) (hroom : ws.length < 2 ^ 29) :
    Emitted (ws ++ [w]) (emit w s) := by
  have hocnt : s.ocnt.toNat + 4 < 2 ^ 32 := by
    rw [h.count]
    omega
  constructor
  · rw [emit_ocnt, ocnt_add_four hocnt, h.count, List.length_append, List.length_singleton]
    omega
  · rw [outBytes_emit w s hocnt, h.bytes, List.flatMap_append, List.map_append, List.flatMap_singleton]

/-! ## The packer's phases against `PACK_TEXT` (R128 to R131) -/

/-- `PACK_TEXT` at its start (R125). -/
def Packing.start (w0 : Nat) : Packing := { out := [], acc := 0#20, n := 0, wpos := w0 }

/-- In `PH_MSG`, with `i` characters read: the words emitted, the accumulator and the word position are those of `PACK_TEXT`,
and `GCNT` has counted its words from `g` on. -/
structure PackerAt (before : List Word) (g : Nat) (p : Packing) (i : Nat) (s : State) : Prop where
  ph : s.ph = .msg
  emitted : Emitted (before ++ p.out) s
  acc : s.acc = p.acc
  nbits : s.nbits.toNat = p.n
  wpos : s.wpos.toNat = p.wpos
  cidx : s.cidx.toNat = i
  gcnt : s.gcnt.toNat = (g + p.out.length) % 17

/-- The state after a step that emits a full field (R128, R129). -/
def emitFull (field : BitVec 20) (acc : BitVec 20) (nbits : BitVec 5) (cidx : BitVec Config.lenW) (s : State) : State :=
  { emit (messageCodeword field) s with
    gcnt := nextGroupCount s.gcnt, acc := acc, nbits := nbits, wpos := s.wpos + 1#5, cidx := cidx,
    ph := if (s.wpos + 1#5).toNat = 16 then .msync else s.ph }

section

variable {before : List Word} {g i : Nat} {p : Packing}

/-- A codeword that fills the batch takes one step more, for the Sync (R131). -/
theorem PackerAt.codeword (h : PackerAt before g p i s) (hw : p.wpos < 16)
    (hroom : before.length + p.out.length < 2 ^ 28) (field acc : BitVec 20) (nbits : BitVec 5) (cidx : BitVec Config.lenW) :
    PackerAt before g { p.codeword field with acc := acc, n := nbits.toNat } cidx.toNat
      (sequencerStep^[if p.wpos + 1 = 16 then 1 else 0] (emitFull field acc nbits cidx s)) := by
  have hwpos : (s.wpos + 1#5).toNat = p.wpos + 1 := by rw [toNat_succ5 (by rw [h.wpos]; omega), h.wpos]
  have hcode := h.emitted.emit (messageCodeword field) (by rw [List.length_append]; omega)
  have hgcnt := toNat_nextGroupCount s.gcnt
  rw [h.gcnt] at hgcnt
  rcases p.codeword_cases field with ⟨h16, hout, hwp⟩ | ⟨h16, hout, hwp⟩
  · have hph : (emitFull field acc nbits cidx s).ph = .msync := if_pos (hwpos.trans h16)
    have hsync := (hcode.congr (t := emitFull field acc nbits cidx s) rfl rfl).emit Config.sync
      (by rw [List.length_append, List.length_append, List.length_singleton]; omega)
    have hnext := toNat_nextGroupCount (nextGroupCount s.gcnt)
    rw [if_pos h16, Function.iterate_one, sequencerStep_msync hph]
    refine ⟨rfl, ?_, rfl, rfl, hwp.symm, rfl, ?_⟩
    · rw [hout]
      rw [List.append_assoc, List.append_assoc] at hsync
      exact hsync.congr rfl rfl
    · rw [hout, List.length_append]
      refine hnext.trans ?_
      rw [hgcnt, List.length_cons, List.length_singleton]
      omega
  · have hph : (emitFull field acc nbits cidx s).ph = .msg := (if_neg (by rw [hwpos]; exact h16)).trans h.ph
    rw [if_neg h16, Function.iterate_zero_apply]
    refine ⟨hph, ?_, rfl, rfl, hwpos.trans hwp.symm, rfl, ?_⟩
    · rw [hout]
      rw [List.append_assoc] at hcode
      exact hcode.congr rfl rfl
    · rw [hout, List.length_append, List.length_singleton]
      refine hgcnt.trans ?_
      omega

/-- A byte step, with the Sync it may call for, packs one character (R128). -/
theorem PackerAt.char (h : PackerAt before g p i s) (hn : p.n ≤ 19) (hw : p.wpos < 16)
    (hroom : before.length + p.out.length < 2 ^ 28) (hi : i < s.mlen.toNat) :
    PackerAt before g (p.char (msgByte s.msg i)) (i + 1)
      (sequencerStep^[if 20 ≤ p.n + 7 ∧ p.wpos + 1 = 16 then 2 else 1] s) := by
  have hc : s.cidx.toNat < s.mlen.toNat := by rw [h.cidx]; exact hi
  have hcidx : (s.cidx + 1).toNat = i + 1 := (toNat_cidx_succ hc).trans (by rw [h.cidx])
  have hread : memRead s s.cidx = msgByte s.msg i := by rw [memRead, h.cidx]
  have hlen := length_charBits (msgByte s.msg i)
  by_cases hr : p.n + 7 < 20
  · rw [if_neg (by omega), Function.iterate_one, sequencerStep_byte h.ph hc,
      byteStep_room s (by rw [h.nbits]; exact hr) (by rw [h.wpos]; omega), hread, Packing.char,
      foldl_bit_room _ _ (by omega), hlen]
    refine ⟨h.ph, h.emitted.congr rfl rfl, by rw [h.acc], ?_, h.wpos, hcidx, h.gcnt⟩
    exact (toNat_nbits_add (k := 7) (by rw [h.nbits]; omega)).trans (by rw [h.nbits])
  · have hstep : sequencerStep s = emitFull (((charBits (msgByte s.msg i)).take (20 - p.n)).foldl appendBit p.acc)
        (fieldOf ((charBits (msgByte s.msg i)).drop (20 - p.n))) (BitVec.ofNat 5 (p.n - 13)) (s.cidx + 1) s := by
      rw [sequencerStep_byte h.ph hc, byteStep_fill s (by rw [h.nbits]; exact hn) (by rw [h.nbits]; omega), hread, h.nbits,
        h.acc]
      rfl
    have hfull := h.codeword hw hroom (((charBits (msgByte s.msg i)).take (20 - p.n)).foldl appendBit p.acc)
        (fieldOf ((charBits (msgByte s.msg i)).drop (20 - p.n))) (BitVec.ofNat 5 (p.n - 13)) (s.cidx + 1)
    have hnbits : (BitVec.ofNat 5 (p.n - 13)).toNat = p.n + 7 - 20 := by
      rw [BitVec.toNat_ofNat]
      omega
    rw [← hstep, ← Function.iterate_succ_apply, hcidx, hnbits] at hfull
    rw [Packing.char, foldl_bit_fill _ _ hn (by omega) (by omega), hlen]
    convert hfull using 2
    split <;> split <;> omega

/-- The flush step, with the Sync it may call for, where there are bits to flush (R129). -/
theorem PackerAt.flush (h : PackerAt before g p i s) (hn : p.n ≤ 19) (hw : p.wpos < 16)
    (hroom : before.length + p.out.length < 2 ^ 28) (hi : i = s.mlen.toNat) :
    PackerAt before g p.flush i
      (sequencerStep^[if p.n = 0 then 0 else if p.wpos + 1 = 16 then 2 else 1] s) := by
  unfold Packing.flush
  by_cases hz : p.n = 0
  · rw [if_pos hz, if_pos hz, Function.iterate_zero_apply]
    exact h
  · have hstep : sequencerStep s = emitFull (flushField p.acc p.n) 0#20 0#5 s.cidx s := by
      rw [sequencerStep_flush h.ph (by rw [h.cidx, hi]) (by rw [h.nbits]; omega), flushStep_eq, h.nbits, h.acc]
      rfl
    have hfull := h.codeword hw hroom (flushField p.acc p.n) 0#20 0#5 s.cidx
    rw [← hstep, ← Function.iterate_succ_apply, h.cidx] at hfull
    rw [if_neg hz, if_neg hz]
    have hflush : p.codeword (flushField p.acc p.n) =
        { p.codeword (flushField p.acc p.n) with acc := 0#20, n := (0#5 : BitVec 5).toNat } := by
      rw [Packing.codeword_eq]
      rfl
    rw [hflush]
    convert hfull using 2
    split <;> rfl

end

end

end Sys2Proof.Machine

namespace Sys2Proof.Machine

/-! ## A whole message through the packer (R128 to R131, R161) -/

section

variable {s : State} {before : List Word} {g w0 : Nat}

theorem length_message (s : State) : s.message.length = s.mlen.toNat := by
  rw [State.message, List.length_map, List.length_range]

theorem getElem?_message {i : Nat} (h : i < s.mlen.toNat) : s.message[i]? = some (msgByte s.msg i) := by
  rw [State.message, List.getElem?_map, List.getElem?_range h, Option.map_some]

/-- The numbers of `PACK_TEXT` after the first `i` characters (R125). -/
theorem foldl_take_numbers (s : State) (hw0 : w0 < 16) {i : Nat} (hi : i ≤ s.mlen.toNat) :
    let p := (s.message.take i).foldl Packing.char (.start w0)
    p.n = 7 * i % 20 ∧ p.wpos = (w0 + 7 * i / 20) % 16 ∧ p.out.length = 7 * i / 20 + (w0 + 7 * i / 20) / 16 := by
  have hlen : (s.message.take i).length = i := by
    rw [List.length_take, length_message, Nat.min_eq_left hi]
  obtain ⟨hn, hwpos, hout, -⟩ := foldl_char_numbers (s.message.take i) w0 hw0
  rw [hlen] at hn hwpos hout
  exact ⟨hn, hwpos, hout⟩

/-- The first `i` characters take one step each and one for each batch they fill. -/
theorem PackerAt.chars (h : PackerAt before g (.start w0) 0 s) (hw0 : w0 < 16) (hbefore : before.length ≤ 30) {i : Nat}
    (hi : i ≤ s.mlen.toNat) :
    PackerAt before g ((s.message.take i).foldl Packing.char (.start w0)) i
      (sequencerStep^[i + (w0 + 7 * i / 20) / 16] s) := by
  induction i with
  | zero =>
    rw [show 0 + (w0 + 7 * 0 / 20) / 16 = 0 by omega]
    exact h
  | succ i ih =>
    have hlt := s.mlen.isLt
    have hp := ih (Nat.le_of_succ_le hi)
    obtain ⟨hn, hwpos, hout⟩ := foldl_take_numbers s hw0 (Nat.le_of_succ_le hi)
    obtain ⟨-, -, hmlen, -, -, hmsg⟩ := iterate_sequencerStep_frame (i + (w0 + 7 * i / 20) / 16) s
    have hchar := hp.char (by omega) (by omega) (by simp only [Config.lenW] at hlt; omega) (by rw [hmlen]; exact hi)
    rw [← Function.iterate_add_apply, hmsg, hn, hwpos] at hchar
    have hsteps : i + 1 + (w0 + 7 * (i + 1) / 20) / 16 =
        (if 20 ≤ 7 * i % 20 + 7 ∧ (w0 + 7 * i / 20) % 16 + 1 = 16 then 2 else 1) + (i + (w0 + 7 * i / 20) / 16) := by
      split <;> omega
    rw [hsteps, List.take_add_one, getElem?_message hi, Option.toList_some, List.foldl_append, List.foldl_cons,
      List.foldl_nil]
    exact hchar

/-- The whole message, the flush and the Syncs. -/
theorem PackerAt.message (h : PackerAt before g (.start w0) 0 s) (hw0 : w0 < 16) (hbefore : before.length ≤ 30) :
    PackerAt before g (packing w0 s.message) s.mlen.toNat
      (sequencerStep^[s.mlen.toNat + (if 7 * s.mlen.toNat % 20 = 0 then 0 else 1) +
        (w0 + messageWords s.mlen.toNat) / 16] s) := by
  have hlt := s.mlen.isLt
  have hp := h.chars hw0 hbefore le_rfl
  obtain ⟨hn, hwpos, hout⟩ := foldl_take_numbers s hw0 le_rfl
  obtain ⟨-, -, hmlen, -⟩ := iterate_sequencerStep_frame (s.mlen.toNat + (w0 + 7 * s.mlen.toNat / 20) / 16) s
  have hflush := hp.flush (by omega) (by omega) (by simp only [Config.lenW] at hlt; omega) (by rw [hmlen])
  rw [← Function.iterate_add_apply, hn, hwpos, List.take_of_length_le (length_message s).le] at hflush
  have hsteps : s.mlen.toNat + (if 7 * s.mlen.toNat % 20 = 0 then 0 else 1) + (w0 + messageWords s.mlen.toNat) / 16 =
      (if 7 * s.mlen.toNat % 20 = 0 then 0 else if (w0 + 7 * s.mlen.toNat / 20) % 16 + 1 = 16 then 2 else 1) +
        (s.mlen.toNat + (w0 + 7 * s.mlen.toNat / 20) / 16) := by
    rw [messageWords]
    split
    · omega
    · split <;> omega
  rw [hsteps]
  exact hflush

end

/-! ## `PACK` (R126, R161) -/

section

variable {s : State}

/-- `PACK` runs in the packer's phases alone (R130, R160). -/
def RunsPack (s : State) : Prop := s.op = 2#3 ∧ (s.ph = .msg ∨ s.ph = .msync ∨ s.ph = .idle)

theorem msgStep_ph_of_pack (hop : s.op = 2#3) (hp : s.ph = .msg) :
    (msgStep s).ph = .msg ∨ (msgStep s).ph = .msync ∨ (msgStep s).ph = .idle := by
  unfold msgStep
  split
  · rw [byteStep_ph, hp]
    split
    · exact .inl rfl
    · exact .inr (.inl rfl)
  · split
    · rw [flushStep_ph, hp]
      split
      · exact .inl rfl
      · exact .inr (.inl rfl)
    · rw [leaveStep_pack hop]
      exact .inr (.inr rfl)

theorem RunsPack.step (h : RunsPack s) :
    RunsPack (sequencerStep s) ∧ (sequencerStep s).pcnt = s.pcnt ∧ (sequencerStep s).padn = s.padn := by
  obtain ⟨hop, hp⟩ := h
  obtain ⟨hop', -⟩ := sequencerStep_frame s
  have hpre : s.ph ≠ .pre := by rcases hp with hp | hp | hp <;> rw [hp] <;> nofun
  have hpadPre : s.ph ≠ .padPre := by rcases hp with hp | hp | hp <;> rw [hp] <;> nofun
  refine ⟨⟨hop'.trans hop, ?_⟩, sequencerStep_pcnt hpre, sequencerStep_padn hpadPre⟩
  rcases hp with hp | hp | hp
  · rw [sequencerStep_msg hp]
    exact msgStep_ph_of_pack hop hp
  · rw [sequencerStep_msync hp]
    exact .inl rfl
  · rw [sequencerStep_idle hp]
    exact .inr (.inr hp)

theorem RunsPack.iterate (h : RunsPack s) (k : Nat) :
    RunsPack (sequencerStep^[k] s) ∧ (sequencerStep^[k] s).pcnt = s.pcnt ∧ (sequencerStep^[k] s).padn = s.padn := by
  induction k with
  | zero => exact ⟨h, rfl, rfl⟩
  | succ k ih =>
    obtain ⟨hr, hpcnt, hpadn⟩ := ih
    obtain ⟨hr', hpcnt', hpadn'⟩ := hr.step
    rw [Function.iterate_succ_apply']
    exact ⟨hr', hpcnt'.trans hpcnt, hpadn'.trans hpadn⟩

/-- The launch of `PACK` with no move of the host to come (R126). -/
def packLaunch (a : BitVec 21) (s : State) : State :=
  { s with
    op := 2#3, a := a, ocnt := 0#32, acc := 0#20, nbits := 0#5, cidx := 0#Config.lenW, gcnt := 0#5,
    wpos := (a.extractLsb' 0 4).setWidth 5, done := false, ph := .msg, host := [] }

theorem runSteps_pack {a : BitVec 21} (hw : (Instr.pack a).wellFormed = true) (hp : s.ph = .idle) (k : Nat) :
    runSteps (1 + k) (commanded (encode (.pack a)) s) = .next (sequencerStep^[k] (packLaunch a s)) :=
  runSteps_commanded hw (exec_pack_of_idle a (s := { s with host := [] }) hp) rfl k

/-- A well-formed operand of `PACK` is a word position. -/
theorem toNat_of_wellFormed_pack {a : BitVec 21} (hw : (Instr.pack a).wellFormed = true) :
    a.toNat < 16 ∧ (startWordPosition a).toNat = a.toNat := by
  have hhigh : a.toNat / 2 ^ 4 % 2 ^ 17 = 0 := by
    have h := congrArg BitVec.toNat (beq_iff_eq.1 hw : a.extractLsb' 4 17 = 0#17)
    rwa [BitVec.extractLsb'_toNat, Nat.shiftRight_eq_div_pow] at h
  have hlt : a.toNat < 16 := by
    have := a.isLt
    omega
  refine ⟨hlt, ?_⟩
  rw [startWordPosition, BitVec.toNat_setWidth_of_le (by decide), BitVec.extractLsb'_toNat]
  exact Nat.mod_eq_of_lt hlt

theorem packLaunch_packerAt {a : BitVec 21} (hw : (Instr.pack a).wellFormed = true) (s : State) :
    PackerAt [] 0 (.start a.toNat) 0 (packLaunch a s) := by
  obtain ⟨-, hwpos⟩ := toNat_of_wellFormed_pack hw
  exact ⟨rfl, Emitted.nil rfl, rfl, rfl, hwpos, rfl, rfl⟩

/-- With the message packed and the packer empty, the leaving step ends `PACK` (R130). -/
theorem PackerAt.leave_pack {before : List Word} {g i : Nat} {p : Packing} (h : PackerAt before g p i s)
    (hi : i = s.mlen.toNat) (hn : p.n = 0) (hop : s.op = 2#3) : sequencerStep s = complete s := by
  rw [sequencerStep_leave h.ph (by rw [h.cidx, hi]) (by rw [h.nbits, hn]), leaveStep_pack hop]

end

/-- Settles O17: from the launch the packer's phases follow `PACK_TEXT` over the whole message, and the leaving step ends the
run; the counters that `PACK` does not use stay by `RunsPack`. -/
theorem packRunEmitsThePackedText : Obligations.PackRunEmitsThePackedText := by
  intro a s hwf hp
  refine ⟨exec_pack_of_idle a hp, ?_⟩
  obtain ⟨hlt, -⟩ := toNat_of_wellFormed_pack hwf
  obtain ⟨hn, hacc, hwpos, -⟩ := packing_numbers s.message hlt
  have hruns : RunsPack (packLaunch a s) := ⟨rfl, .inl rfl⟩
  have hpacked : PackerAt [] 0 (packing a.toNat s.message) s.mlen.toNat
      (sequencerStep^[s.mlen.toNat + (if 7 * s.mlen.toNat % 20 = 0 then 0 else 1) +
        (a.toNat + messageWords s.mlen.toNat) / 16] (packLaunch a s)) :=
    (packLaunch_packerAt hwf s).message hlt (Nat.zero_le _)
  refine ⟨_, runSteps_pack hwf hp _, ?_⟩
  rw [packStepCount, Function.iterate_succ_apply']
  generalize s.mlen.toNat + (if 7 * s.mlen.toNat % 20 = 0 then 0 else 1) + (a.toNat + messageWords s.mlen.toNat) / 16 = k
    at hpacked
  obtain ⟨hop, -, hmlen, hr0, hr1, -⟩ := iterate_sequencerStep_frame k (packLaunch a s)
  obtain ⟨-, hpcnt, hpadn⟩ := hruns.iterate k
  rw [hpacked.leave_pack (congrArg BitVec.toNat hmlen.symm) hn hop, complete_wpos, complete_acc, complete_nbits,
    complete_cidx, complete_r0, complete_r1, complete_pcnt, complete_padn, hpacked.wpos, hpacked.acc]
  exact ⟨⟨rfl, rfl⟩, hpacked.emitted.bytes, hwpos.trans (by rw [length_message]), hacc,
    BitVec.eq_of_toNat_eq (hpacked.nbits.trans hn), BitVec.eq_of_toNat_eq hpacked.cidx, hr0, hr1, hpcnt, hpadn⟩

end Sys2Proof.Machine

namespace Sys2Proof.Machine

/-! ## From the launch of `ENC` to its message (R152 to R156) -/

section

variable {s t : State} {a : BitVec 21} {k : Nat}

/-- The launch of `ENC` with no move of the host to come (R152). -/
def encLaunch (a : BitVec 21) (s : State) : State :=
  { s with
    op := 4#3, a := a, ocnt := 0#32, acc := 0#20, nbits := 0#5, cidx := 0#Config.lenW, gcnt := 0#5, pcnt := 0#5,
    wpos := 0#5, padn := padCount a, done := false, ph := .pre, host := [] }

theorem runSteps_enc (a : BitVec 21) (hp : s.ph = .idle) (k : Nat) :
    runSteps (1 + k) (commanded (encode (.enc a)) s) = .next (sequencerStep^[k] (encLaunch a s)) :=
  runSteps_commanded rfl (exec_enc_of_idle a (s := { s with host := [] }) hp) rfl k

/-- The words before the packed text, one for each step (R153 to R156). -/
def leadWords (a : BitVec 21) : List Word :=
  List.replicate 18 Config.preambleWord ++ [Config.sync] ++ List.replicate (padCount a).toNat Config.idle ++
    [addrCodeword Config.textDataFlag a]

theorem length_leadWords (a : BitVec 21) : (leadWords a).length = 20 + (padCount a).toNat := by
  simp only [leadWords, List.length_append, List.length_replicate, List.length_singleton]
  omega

/-- The word of each step, by the phases of `LeadIn`. -/
theorem getElem?_leadWords (a : BitVec 21) (k : Nat) :
    (k < 18 → (leadWords a)[k]? = some Config.preambleWord) ∧ (leadWords a)[18]? = some Config.sync ∧
    (19 ≤ k → k < 19 + (padCount a).toNat → (leadWords a)[k]? = some Config.idle) ∧
    (leadWords a)[19 + (padCount a).toNat]? = some (addrCodeword Config.textDataFlag a) := by
  simp only [leadWords, List.getElem?_append, List.length_append, List.length_replicate, List.length_singleton,
    List.getElem?_replicate]
  refine ⟨fun h => ?_, ?_, fun h h' => ?_, by simp⟩
  · rw [if_pos (by omega), if_pos (by omega), if_pos h, if_pos h]
  · rw [if_pos (by omega), if_pos (by decide), if_neg (by decide)]
    rfl
  · rw [if_pos (by omega), if_neg (by omega), if_pos (by omega)]

/-- What `LeadIn` leaves out: the words emitted, the counters and the empty packer, `k` steps after the launch. -/
structure LeadInRegs (a : BitVec 21) (k : Nat) (t : State) : Prop where
  operand : t.a = a
  emitted : Emitted ((leadWords a).take k) t
  wpos : t.wpos.toNat = k - 19
  gcnt : t.gcnt.toNat = k - 18
  acc : t.acc = 0#20
  nbits : t.nbits = 0#5
  cidx : t.cidx = 0#Config.lenW

/-- One more word. -/
theorem LeadInRegs.emitted_succ (h : LeadInRegs a k t) {w : Word} (hw : (leadWords a)[k]? = some w) :
    Emitted ((leadWords a).take (k + 1)) (emit w t) := by
  have hlen := length_leadWords a
  have hpad := toNat_padCount_le a
  rw [List.take_add_one, hw]
  exact h.emitted.emit w (by rw [List.length_take]; omega)

theorem LeadInRegs.step (hl : LeadIn (padCount a) k t) (h : LeadInRegs a k t) :
    LeadInRegs a (k + 1) (sequencerStep t) := by
  obtain ⟨hpre, hsync, hidle, haddr⟩ := getElem?_leadWords a k
  have hpad := toNat_padCount_le a
  have hnext := toNat_nextGroupCount t.gcnt
  have hgcnt := h.gcnt
  have hwpos := h.wpos
  cases hl with
  | pre hp hc hlt hd =>
    rw [sequencerStep_pre hp]
    exact ⟨h.operand, (h.emitted_succ (hpre hlt)).congr rfl rfl, hwpos.trans (by omega), hgcnt.trans (by omega), h.acc,
      h.nbits, h.cidx⟩
  | sync0 hp hc hd =>
    rw [sequencerStep_sync0 hp]
    exact ⟨h.operand, (h.emitted_succ hsync).congr rfl rfl, hwpos, rfl, h.acc, h.nbits, h.cidx⟩
  | padPre hp hz hge hsum =>
    obtain ⟨-, hpos⟩ := toNat_pred3 hz
    rw [sequencerStep_padPre hp]
    exact ⟨h.operand, (h.emitted_succ (hidle hge (by omega))).congr rfl rfl,
      (toNat_succ5 (by omega)).trans (by omega), hnext.trans (by omega), h.acc, h.nbits, h.cidx⟩
  | addrW hp hz =>
    rw [sequencerStep_addrW hp, h.operand]
    exact ⟨h.operand, (h.emitted_succ haddr).congr rfl rfl, (toNat_succ5 (by omega)).trans (by omega),
      hnext.trans (by omega), h.acc, h.nbits, h.cidx⟩

theorem encLaunch_leadIn (a : BitVec 21) (s : State) : LeadIn (padCount a) 0 (encLaunch a s) :=
  .pre rfl rfl (by decide) rfl

theorem encLaunch_leadInRegs (a : BitVec 21) (s : State) {k : Nat} (hk : k ≤ 20 + (padCount a).toNat) :
    LeadInRegs a k (sequencerStep^[k] (encLaunch a s)) := by
  induction k with
  | zero => exact ⟨rfl, Emitted.nil rfl, rfl, rfl, rfl, rfl, rfl⟩
  | succ k ih =>
    rw [Function.iterate_succ_apply']
    exact (ih (by omega)).step ((encLaunch_leadIn a s).iterate (by omega))

/-- After the address codeword the packer starts, right after it in the batch. -/
theorem encLaunch_packerAt (a : BitVec 21) (s : State) :
    PackerAt (leadWords a) ((padCount a).toNat + 2) (.start ((padCount a).toNat + 1)) 0
      (sequencerStep^[20 + (padCount a).toNat] (encLaunch a s)) := by
  have hpad := toNat_padCount_le a
  have hregs := encLaunch_leadInRegs a s le_rfl
  have hph : (sequencerStep^[20 + (padCount a).toNat] (encLaunch a s)).ph = .msg := by
    have hphase := ((encLaunch_leadIn a s).iterate (k := 19 + (padCount a).toNat) le_rfl).phase
    rw [if_neg (by omega), if_neg (by omega), if_neg (Nat.lt_irrefl _)] at hphase
    obtain ⟨haddrW, -⟩ := hphase
    rw [show 20 + (padCount a).toNat = 19 + (padCount a).toNat + 1 by omega, Function.iterate_succ_apply',
      sequencerStep_addrW haddrW]
  have hemitted := hregs.emitted
  rw [List.take_of_length_le (length_leadWords a).le] at hemitted
  refine ⟨hph, ?_, hregs.acc, by rw [hregs.nbits]; rfl, hregs.wpos.trans (by simp only [Packing.start]; omega),
    by rw [hregs.cidx]; rfl, hregs.gcnt.trans (by simp only [Packing.start, List.length_nil]; omega)⟩
  rw [Packing.start, List.append_nil]
  exact hemitted

end

/-! ## From the message of `ENC` to its end (R130, R158, R159) -/

section

variable {s t : State}

/-- In `PH_PADPOST`, with `n` words of the sync region counted. -/
structure PaddingAt (ws : List Word) (n : Nat) (t : State) : Prop where
  ph : t.ph = .padPost
  emitted : Emitted ws t
  gcnt : t.gcnt.toNat = n % 17

/-- The leaving step and the trailing Idle (R130, R158). -/
theorem PackerAt.tail {before : List Word} {g i : Nat} {p : Packing} (h : PackerAt before g p i s)
    (hi : i = s.mlen.toNat) (hn : p.n = 0) (hop : s.op = 4#3) (hroom : before.length + p.out.length < 2 ^ 28) :
    PaddingAt (before ++ p.out ++ [Config.idle]) (g + p.out.length + 1) (sequencerStep^[2] s) := by
  have hleave : sequencerStep s = { s with ph := .tail } := by
    rw [sequencerStep_leave h.ph (by rw [h.cidx, hi]) (by rw [h.nbits, hn]), leaveStep_enc hop]
  have hidle := h.emitted.emit Config.idle (by rw [List.length_append]; omega)
  rw [Function.iterate_succ_apply, Function.iterate_one, hleave, sequencerStep_tail rfl]
  refine ⟨rfl, hidle.congr rfl rfl, (toNat_nextGroupCount s.gcnt).trans ?_⟩
  rw [h.gcnt]
  omega

/-- The Idle words that fill the last group, one step each (R159). -/
theorem PaddingAt.pad {ws : List Word} {n : Nat} (h : PaddingAt ws n t) (hroom : ws.length < 2 ^ 28) {j : Nat}
    (hj : j ≤ groupPadding n) :
    PaddingAt (ws ++ List.replicate j Config.idle) (n + j) (sequencerStep^[j] t) := by
  induction j with
  | zero =>
    rw [List.replicate_zero, List.append_nil]
    exact h
  | succ j ih =>
    have hp := ih (Nat.le_of_succ_le hj)
    have hgcnt := hp.gcnt
    rw [groupPadding, Config.groupWords] at hj
    have hne : (sequencerStep^[j] t).gcnt ≠ 0#5 := by
      intro hz
      rw [hz, BitVec.toNat_ofNat] at hgcnt
      omega
    have hidle := hp.emitted.emit Config.idle (by rw [List.length_append, List.length_replicate]; omega)
    rw [Function.iterate_succ_apply', sequencerStep_padPost hp.ph hne, List.replicate_succ', ← List.append_assoc]
    refine ⟨hp.ph, hidle.congr rfl rfl, (toNat_nextGroupCount _).trans ?_⟩
    rw [hgcnt]
    omega

/-- The last group full, the run ends (R159). -/
theorem PaddingAt.finish {ws : List Word} {n : Nat} (h : PaddingAt ws n t) (hn : n % 17 = 0) :
    sequencerStep t = complete t :=
  sequencerStep_finish h.ph (BitVec.eq_of_toNat_eq (h.gcnt.trans hn))

end

/-! ## The whole run of `ENC` (R161, R163, R182) -/

section

variable (a : BitVec 21) (s : State)

theorem length_lead_packText :
    (leadWords a).length + (packing ((padCount a).toNat + 1) s.message).out.length < 2 ^ 20 := by
  have hlt : s.mlen.toNat < 65536 := s.mlen.isLt
  have hpad := toNat_padCount_le a
  obtain ⟨-, hm⟩ := messageWords_bounds s.mlen.toNat
  obtain ⟨-, -, -, hlen⟩ := packing_numbers s.message (padCount_succ_lt a)
  rw [length_message, packText] at hlen
  rw [length_leadWords, hlen]
  omega

/-- The step that ends the run is the last of the counted steps (R163). -/
theorem encStepCount_eq (n : Nat) :
    encStepCount a n =
      groupPadding (1 + (padCount a).toNat + 1 + messageWords n + ((padCount a).toNat + 1 + messageWords n) / 16 + 1) +
        (2 + ((n + (if 7 * n % 20 = 0 then 0 else 1) + ((padCount a).toNat + 1 + messageWords n) / 16) +
          (20 + (padCount a).toNat))) + 1 := by
  simp only [encStepCount]
  omega

/-- The transmission, as the run emits it. -/
theorem transmissionWords_eq_lead (msg : List Byte) :
    transmissionWords Config.textDataFlag a msg =
      leadWords a ++ (packing ((padCount a).toNat + 1) msg).out ++ [Config.idle] ++
        List.replicate (groupPadding (regionUnpadded Config.textDataFlag a msg).length) Config.idle := by
  rw [transmissionWords_eq, leadWords, packText, List.replicate_add, List.replicate_one, ← List.append_assoc]

/-- One step before its end an `ENC` run has emitted the whole transmission, and counted whole groups. -/
theorem encLaunch_paddingAt :
    ∃ n, n % 17 = 0 ∧ PaddingAt (transmissionWords Config.textDataFlag a s.message) n
      (sequencerStep^[encStepCount a s.mlen.toNat - 1] (encLaunch a s)) := by
  have hroom := length_lead_packText a s
  obtain ⟨hn, -, -, hlen⟩ := packing_numbers s.message (padCount_succ_lt a)
  have hregion := length_regionUnpadded Config.textDataFlag a s.message
  rw [length_message] at hlen hregion
  rw [packText] at hlen
  rw [transmissionWords_eq_lead, hregion, encStepCount_eq, Nat.add_sub_cancel]
  have hmessage := (encLaunch_packerAt a s).message (padCount_succ_lt a)
    (by have := toNat_padCount_le a; rw [length_leadWords]; omega)
  have hsame : (sequencerStep^[20 + (padCount a).toNat] (encLaunch a s)).mlen = s.mlen ∧
      (sequencerStep^[20 + (padCount a).toNat] (encLaunch a s)).message = s.message := by
    obtain ⟨-, -, hmlen, -, -, hmsg⟩ := iterate_sequencerStep_frame (20 + (padCount a).toNat) (encLaunch a s)
    exact ⟨hmlen, by rw [State.message, hmlen, hmsg]; rfl⟩
  obtain ⟨hmlen, hmsg⟩ := hsame
  rw [hmlen, hmsg, ← Function.iterate_add_apply] at hmessage
  generalize s.mlen.toNat + (if 7 * s.mlen.toNat % 20 = 0 then 0 else 1) +
    ((padCount a).toNat + 1 + messageWords s.mlen.toNat) / 16 + (20 + (padCount a).toNat) = k at *
  obtain ⟨hop, -, hmlen', -⟩ := iterate_sequencerStep_frame k (encLaunch a s)
  have htail := hmessage.tail (congrArg BitVec.toNat hmlen'.symm) hn hop (hroom.trans (by decide))
  rw [← Function.iterate_add_apply] at htail
  have hcount : (padCount a).toNat + 2 + (packing ((padCount a).toNat + 1) s.message).out.length + 1 =
      (regionUnpadded Config.textDataFlag a s.message).length := by
    omega
  have hwords : 1 + (padCount a).toNat + 1 + messageWords s.mlen.toNat +
      ((padCount a).toNat + 1 + messageWords s.mlen.toNat) / 16 + 1 =
        (regionUnpadded Config.textDataFlag a s.message).length := by
    omega
  have hpadded := htail.pad (by rw [List.length_append, List.length_append, List.length_singleton]; omega) le_rfl
  rw [← Function.iterate_add_apply, hcount] at hpadded
  rw [← hregion, hwords]
  exact ⟨_, by rw [groupPadding, Config.groupWords]; omega, hpadded⟩

/-- The last step of an `ENC` run completes it, with the transmission in `OUT`. -/
theorem encLaunch_end :
    ∃ t, sequencerStep^[encStepCount a s.mlen.toNat] (encLaunch a s) = t ∧ Completed t ∧
      Emitted (transmissionWords Config.textDataFlag a s.message) t ∧ t.r0 = s.r0 ∧ t.r1 = s.r1 := by
  obtain ⟨n, hn, hend⟩ := encLaunch_paddingAt a s
  obtain ⟨-, -, -, hr0, hr1, -⟩ := iterate_sequencerStep_frame (encStepCount a s.mlen.toNat - 1) (encLaunch a s)
  have hpos : encStepCount a s.mlen.toNat = encStepCount a s.mlen.toNat - 1 + 1 := by
    rw [encStepCount_eq, Nat.add_sub_cancel]
  rw [hpos, Function.iterate_succ_apply', hend.finish hn]
  exact ⟨_, rfl, ⟨rfl, rfl⟩, hend.emitted.congr rfl rfl, hr0, hr1⟩

/-- Until then it is busy, for an idle core would have stayed idle. -/
theorem encLaunch_busy {k : Nat} (hk : k < encStepCount a s.mlen.toNat) :
    (sequencerStep^[k] (encLaunch a s)).busy = true := by
  obtain ⟨n, -, hend⟩ := encLaunch_paddingAt a s
  exact busy_iff.2 (iterate_ph_ne_idle (Nat.le_sub_one_of_lt hk) (hend.ph.trans_ne nofun))

end

/-- Settles O18: the sequencer's phases follow the steps of `ENCODE_TRANSMISSION`: lead-in, packed text, trailing Idle, batch
padding. -/
theorem encRunEmitsTheTransmission : Obligations.EncRunEmitsTheTransmission := by
  intro a s hp
  obtain ⟨t, ht, hdone, hemitted, hr0, hr1⟩ := encLaunch_end a s
  exact ⟨exec_enc_of_idle a hp, t, (runSteps_enc a hp _).trans (congrArg _ ht), hdone, hemitted.bytes, hr0, hr1⟩

/-- Settles O19: the counted steps end in the step that completes the run, and no step before it is idle. -/
theorem encRunTakesTheCountedSteps : Obligations.EncRunTakesTheCountedSteps := by
  refine ⟨fun a s k hp hk => ⟨_, runSteps_enc a hp k, encLaunch_busy a s hk⟩, fun a s hp => ?_, by decide⟩
  obtain ⟨t, ht, hdone, -⟩ := encLaunch_end a s
  exact ⟨t, (runSteps_enc a hp _).trans (congrArg _ ht), hdone⟩

theorem length_flatMap_ser32 (ws : List Word) : (ws.flatMap ser32).length = 4 * ws.length := by
  rw [List.length_flatMap, List.map_congr_left fun w _ => length_ser32 w, List.map_const', List.sum_replicate, smul_eq_mul,
    Nat.mul_comm]

theorem length_encodeTransmission (f : BitVec 2) (a : BitVec 21) (msg : List Byte) :
    (encodeTransmission f a msg).length = 4 * predictedWordCount a msg.length := by
  rw [encodeTransmission, length_flatMap_ser32, length_transmissionWords]

/-- Settles O20: the run emits the transmission, whose length is predicted; the largest prediction by its bound and by the
message that reaches it. -/
theorem encOutputHasThePredictedLength : Obligations.EncOutputHasThePredictedLength := by
  refine ⟨fun a s hp => ?_, length_encodeTransmission, predictedWordCount_le, by decide⟩
  obtain ⟨t, ht, hdone, hemitted, -⟩ := encLaunch_end a s
  refine ⟨t, (runSteps_enc a hp _).trans (congrArg _ ht), hdone, ?_⟩
  rw [hemitted.count, length_transmissionWords, length_message]

end Sys2Proof.Machine

namespace Sys2Proof.Machine

/-! ## What a run takes from the past (R211) -/

section

variable {s t : State}

/-- The same output so far; `OCNT` is a multiple of 4, so that an emitted word does not wrap within its bytes. -/
structure SameStream (s t : State) : Prop where
  ocnt : s.ocnt = t.ocnt
  words : s.ocnt.toNat % 4 = 0
  bytes : s.outBytes = t.outBytes

theorem SameStream.congr {s' t' : State} (h : SameStream s t) (hs : s'.ocnt = s.ocnt ∧ s'.out = s.out)
    (ht : t'.ocnt = t.ocnt ∧ t'.out = t.out) : SameStream s' t' := by
  obtain ⟨hso, hsb⟩ := hs
  obtain ⟨hto, htb⟩ := ht
  refine ⟨by rw [hso, hto, h.ocnt], by rw [hso, h.words], ?_⟩
  have hbytes := h.bytes
  unfold State.outBytes at hbytes ⊢
  rw [hso, hsb, hto, htb]
  exact hbytes

/-- The same word emitted by both. -/
theorem SameStream.emit (h : SameStream s t) (w : Word) : SameStream (emit w s) (emit w t) := by
  refine ⟨by rw [emit_ocnt, emit_ocnt, h.ocnt], words_emit _ h.words, ?_⟩
  by_cases hroom : s.ocnt.toNat + 4 < 2 ^ 32
  · rw [outBytes_emit w s hroom, outBytes_emit w t (h.ocnt ▸ hroom), h.bytes]
  · have hzero : s.ocnt + 4#32 = 0#32 := by
      have hlt := s.ocnt.isLt
      have hwords := h.words
      apply BitVec.eq_of_toNat_eq
      rw [BitVec.toNat_add]
      simp only [BitVec.toNat_ofNat]
      omega
    rw [State.outBytes, State.outBytes, emit_ocnt, emit_ocnt, ← h.ocnt, hzero]
    rfl

/-- Two runs of the same command on the same message agree in all that the step rules read and in what the host sees. The
preamble and padding counters need not agree under `PACK`, which does not use them. -/
structure SameRun (s t : State) : Prop where
  ph : s.ph = t.ph
  op : s.op = t.op
  a : s.a = t.a
  mlen : s.mlen = t.mlen
  cidx : s.cidx = t.cidx
  acc : s.acc = t.acc
  nbits : s.nbits = t.nbits
  wpos : s.wpos = t.wpos
  gcnt : s.gcnt = t.gcnt
  done : s.done = t.done
  counters : (s.pcnt = t.pcnt ∧ s.padn = t.padn) ∨ RunsPack s
  stream : SameStream s t
  msg : ∀ i, i < s.mlen.toNat → msgByte s.msg i = msgByte t.msg i

theorem not_runsPack {p : Phase} (hp : s.ph = p) (hne : p ≠ .msg ∧ p ≠ .msync ∧ p ≠ .idle) : ¬ RunsPack s := by
  subst hp
  obtain ⟨h1, h2, h3⟩ := hne
  rintro ⟨-, h | h | h⟩
  · exact h1 h
  · exact h2 h
  · exact h3 h

theorem SameRun.emitField (h : SameRun s t) (field : BitVec 20) : SameRun (emitField field s) (emitField field t) :=
  { h with
    acc := rfl
    nbits := rfl
    wpos := congrArg nextWordPosition h.wpos
    gcnt := congrArg nextGroupCount h.gcnt
    stream := (h.stream.emit (messageCodeword field)).congr ⟨rfl, rfl⟩ ⟨rfl, rfl⟩ }

theorem SameRun.packBit (h : SameRun s t) (b : Bool) : SameRun (packBit s b) (packBit t b) := by
  unfold Machine.packBit
  rw [← h.nbits, ← h.acc]
  split
  · exact h.emitField _
  · exact { h with acc := rfl, nbits := rfl, stream := h.stream.congr ⟨rfl, rfl⟩ ⟨rfl, rfl⟩ }

theorem SameRun.foldl_packBit (h : SameRun s t) (bs : List Bool) :
    SameRun (bs.foldl Machine.packBit s) (bs.foldl Machine.packBit t) := by
  induction bs generalizing s t with
  | nil => exact h
  | cons b bs ih => exact ih (h.packBit b)

theorem SameRun.enterSyncAtBoundary (h : SameRun s t) (hp : s.ph = .msg) :
    SameRun (enterSyncAtBoundary s) (enterSyncAtBoundary t) := by
  have hph : (Machine.enterSyncAtBoundary s).ph = .msg ∨ (Machine.enterSyncAtBoundary s).ph = .msync := by
    rw [enterSyncAtBoundary_ph, hp]
    split
    · exact .inl rfl
    · exact .inr rfl
  exact { h with
    ph := by rw [enterSyncAtBoundary_eq, enterSyncAtBoundary_eq, h.wpos, h.ph]
    counters := h.counters.imp_right fun ⟨hop, _⟩ => ⟨hop, hph.imp_right .inl⟩
    stream := h.stream.congr ⟨rfl, rfl⟩ ⟨rfl, rfl⟩ }

/-- Both read the same byte (R51). -/
theorem SameRun.memRead_eq (h : SameRun s t) (hc : s.cidx.toNat < s.mlen.toNat) : memRead s s.cidx = memRead t t.cidx := by
  rw [memRead, memRead, ← h.cidx, h.msg _ hc]

theorem SameRun.byteStep (h : SameRun s t) (hp : s.ph = .msg) (hc : s.cidx.toNat < s.mlen.toNat) :
    SameRun (byteStep s) (byteStep t) := by
  have hpacked : SameRun (packChar (memRead s s.cidx) s) (packChar (memRead s s.cidx) t) := h.foldl_packBit _
  have hph := (packChar_ph (memRead s s.cidx) s).trans hp
  rw [byteStep_eq_packChar, byteStep_eq_packChar, ← h.memRead_eq hc, ← h.cidx]
  generalize packChar (memRead s s.cidx) s = u at hpacked hph
  generalize packChar (memRead s s.cidx) t = v at hpacked
  refine SameRun.enterSyncAtBoundary ?_ hph
  exact { hpacked with cidx := rfl, stream := hpacked.stream.congr ⟨rfl, rfl⟩ ⟨rfl, rfl⟩ }

theorem SameRun.leaveStep (h : SameRun s t) : SameRun (leaveStep s) (leaveStep t) := by
  unfold Machine.leaveStep
  rw [← h.op]
  split
  · rename_i hop
    have hnot : ¬ RunsPack s := fun ⟨hpack, _⟩ => absurd (hop.symm.trans hpack) (by decide)
    exact { h with
      ph := rfl
      op := rfl
      counters := .inl (h.counters.resolve_right hnot)
      stream := h.stream.congr ⟨rfl, rfl⟩ ⟨rfl, rfl⟩ }
  · split
    · exact { h with
        ph := rfl
        done := rfl
        counters := h.counters.imp_right fun ⟨hop, _⟩ => ⟨hop, .inr (.inr rfl)⟩
        stream := h.stream.congr ⟨rfl, rfl⟩ ⟨rfl, rfl⟩ }
    · exact h

theorem SameRun.msgStep (h : SameRun s t) (hp : s.ph = .msg) : SameRun (msgStep s) (msgStep t) := by
  unfold Machine.msgStep
  rw [← h.cidx, ← h.mlen, ← h.nbits]
  split
  · exact h.byteStep hp ‹_›
  · split
    · rw [flushStep, flushStep, ← h.acc, ← h.nbits]
      exact (h.emitField _).enterSyncAtBoundary hp
    · exact h.leaveStep

/-- A step keeps the agreement: in each phase it reads only what the two runs agree in. -/
theorem SameRun.step (h : SameRun s t) : SameRun (sequencerStep s) (sequencerStep t) := by
  have hcounters {p : Phase} (hp : s.ph = p) (hne : p ≠ .msg ∧ p ≠ .msync ∧ p ≠ .idle) :=
    h.counters.resolve_right (not_runsPack hp hne)
  have hstream (w : Word) := h.stream.emit w
  have hgcnt := congrArg nextGroupCount h.gcnt
  have hwpos := congrArg (· + 1#5) h.wpos
  cases hp : s.ph with
  | idle => rw [sequencerStep_idle hp, sequencerStep_idle (h.ph ▸ hp)]; exact h
  | pre =>
    obtain ⟨hpcnt, hpadn⟩ := hcounters hp (by decide)
    rw [sequencerStep_pre hp, sequencerStep_pre (h.ph ▸ hp), ← hpcnt]
    exact { h with ph := rfl, counters := .inl ⟨rfl, hpadn⟩, stream := (hstream _).congr ⟨rfl, rfl⟩ ⟨rfl, rfl⟩ }
  | sync0 =>
    obtain ⟨hpcnt, hpadn⟩ := hcounters hp (by decide)
    rw [sequencerStep_sync0 hp, sequencerStep_sync0 (h.ph ▸ hp), ← hpadn]
    exact { h with
      ph := rfl, gcnt := rfl, counters := .inl ⟨hpcnt, hpadn⟩, stream := (hstream _).congr ⟨rfl, rfl⟩ ⟨rfl, rfl⟩ }
  | padPre =>
    obtain ⟨hpcnt, hpadn⟩ := hcounters hp (by decide)
    rw [sequencerStep_padPre hp, sequencerStep_padPre (h.ph ▸ hp), ← hpadn]
    exact { h with
      ph := rfl, gcnt := hgcnt, wpos := hwpos, counters := .inl ⟨hpcnt, rfl⟩
      stream := (hstream _).congr ⟨rfl, rfl⟩ ⟨rfl, rfl⟩ }
  | addrW =>
    rw [sequencerStep_addrW hp, sequencerStep_addrW (h.ph ▸ hp), ← h.a]
    exact { h with
      ph := rfl, gcnt := hgcnt, wpos := hwpos, counters := .inl (hcounters hp (by decide))
      stream := (hstream _).congr ⟨rfl, rfl⟩ ⟨rfl, rfl⟩ }
  | msg => rw [sequencerStep_msg hp, sequencerStep_msg (h.ph ▸ hp)]; exact h.msgStep hp
  | msync =>
    rw [sequencerStep_msync hp, sequencerStep_msync (h.ph ▸ hp)]
    exact { h with
      ph := rfl, gcnt := hgcnt, wpos := rfl, counters := h.counters.imp_right fun ⟨hop, _⟩ => ⟨hop, .inl rfl⟩
      stream := (hstream _).congr ⟨rfl, rfl⟩ ⟨rfl, rfl⟩ }
  | tail =>
    rw [sequencerStep_tail hp, sequencerStep_tail (h.ph ▸ hp)]
    exact { h with
      ph := rfl, gcnt := hgcnt, wpos := hwpos, counters := .inl (hcounters hp (by decide))
      stream := (hstream _).congr ⟨rfl, rfl⟩ ⟨rfl, rfl⟩ }
  | padPost =>
    by_cases hg : s.gcnt = 0#5
    · rw [sequencerStep_finish hp hg, sequencerStep_finish (h.ph ▸ hp) (h.gcnt ▸ hg)]
      exact { h with
        ph := rfl, done := rfl, counters := .inl (hcounters hp (by decide))
        stream := h.stream.congr ⟨rfl, rfl⟩ ⟨rfl, rfl⟩ }
    · rw [sequencerStep_padPost hp hg, sequencerStep_padPost (h.ph ▸ hp) (h.gcnt ▸ hg)]
      exact { h with
        gcnt := hgcnt, wpos := hwpos, counters := .inl (hcounters hp (by decide))
        stream := (hstream _).congr ⟨rfl, rfl⟩ ⟨rfl, rfl⟩ }

theorem SameRun.iterate (h : SameRun s t) (k : Nat) : SameRun (sequencerStep^[k] s) (sequencerStep^[k] t) := by
  induction k with
  | zero => exact h
  | succ k ih =>
    rw [Function.iterate_succ_apply', Function.iterate_succ_apply']
    exact ih.step

/-- The host sees the same (R215). -/
theorem SameRun.sameOutput (h : SameRun s t) : SameOutput s t :=
  ⟨by rw [statusWord, statusWord, State.busy, State.busy, h.done, h.ph], h.stream.ocnt, h.stream.bytes⟩

theorem SameMessage.msgByte_eq (h : SameMessage s t) {i : Nat} (hi : i < s.mlen.toNat) :
    msgByte s.msg i = msgByte t.msg i := by
  obtain ⟨hmlen, hmsg⟩ := h
  have hi' : i < t.mlen.toNat := hmlen ▸ hi
  exact Option.some.inj ((getElem?_message hi).symm.trans ((congrArg (·[i]?) hmsg).trans (getElem?_message hi')))

theorem SameStream.of_ocnt_zero (hs : s.ocnt = 0#32) (ht : t.ocnt = 0#32) : SameStream s t :=
  ⟨hs.trans ht.symm, by rw [hs]; rfl, by rw [State.outBytes, State.outBytes, hs, ht]; rfl⟩

/-- The launch of `PACK` leaves nothing of the past that the run reads but the message. -/
theorem SameMessage.packLaunch (h : SameMessage s t) (a : BitVec 21) : SameRun (packLaunch a s) (packLaunch a t) where
  ph := rfl
  op := rfl
  a := rfl
  mlen := h.1
  cidx := rfl
  acc := rfl
  nbits := rfl
  wpos := rfl
  gcnt := rfl
  done := rfl
  counters := .inr ⟨rfl, .inl rfl⟩
  stream := .of_ocnt_zero rfl rfl
  msg _ := h.msgByte_eq

theorem SameMessage.encLaunch (h : SameMessage s t) (a : BitVec 21) : SameRun (encLaunch a s) (encLaunch a t) where
  ph := rfl
  op := rfl
  a := rfl
  mlen := h.1
  cidx := rfl
  acc := rfl
  nbits := rfl
  wpos := rfl
  gcnt := rfl
  done := rfl
  counters := .inl ⟨rfl, rfl⟩
  stream := .of_ocnt_zero rfl rfl
  msg _ := h.msgByte_eq

/-! ### Commands that complete in the launch step (R104, R143, R181) -/

/-- The end of such a command, with its two results and no move of the host to come. -/
def completedAtLaunch (i : Instr) (x y : Word) (s : State) : State :=
  complete { launch i.opcode i.operand { s with host := [] } with r0 := x, r1 := y }

theorem runSteps_completedAtLaunch {i : Instr} {x y : Word} (hw : i.wellFormed = true)
    (h : exec i { s with host := [] } = .next (completedAtLaunch i x y s)) (k : Nat) :
    runSteps (1 + k) (commanded (encode i) s) = .next (completedAtLaunch i x y s) := by
  rw [runSteps_commanded hw h rfl, iterate_sequencerStep_of_idle k rfl]

/-- The same results from the same launch: the output is empty and the core idle in both. -/
theorem completedAtLaunch_agree {i : Instr} {x y : Word} (hw : i.wellFormed = true)
    (hs : exec i { s with host := [] } = .next (completedAtLaunch i x y s))
    (ht : exec i { t with host := [] } = .next (completedAtLaunch i x y t)) (k : Nat) :
    ∃ s' t', runSteps (1 + k) (commanded (encode i) s) = .next s' ∧ runSteps (1 + k) (commanded (encode i) t) = .next t' ∧
      SameOutput s' t' ∧ s'.r0 = t'.r0 ∧ s'.r1 = t'.r1 :=
  ⟨_, _, runSteps_completedAtLaunch hw hs k, runSteps_completedAtLaunch hw ht k, ⟨rfl, rfl, rfl⟩, rfl, rfl⟩

theorem exec_cw_completedAtLaunch (p : BitVec 21) (hp : s.ph = .idle) :
    exec (.cw p) { s with host := [] } =
      .next (completedAtLaunch (.cw p) (assemble p) ((crc10 p).setWidth 32) s) := by
  rw [exec, execCw, whenIdle_of_idle (s := { s with host := [] }) _ hp]
  rfl

theorem exec_addr_completedAtLaunch (a : BitVec 21) (hp : s.ph = .idle) :
    exec (.addr a) { s with host := [] } =
      .next (completedAtLaunch (.addr a) (addrCodeword Config.textDataFlag a) ((padCount a).setWidth 32) s) := by
  rw [exec, execAddr, whenIdle_of_idle (s := { s with host := [] }) _ hp]
  rfl

theorem exec_len_completedAtLaunch (a : BitVec 21) (hp : s.ph = .idle) {n : BitVec Config.lenW} (hn : s.mlen = n) :
    exec (.len a) { s with host := [] } =
      .next (completedAtLaunch (.len a) (BitVec.ofNat 32 (predictedWordCount a n.toNat))
        (BitVec.ofNat 32 (4 * predictedWordCount a n.toNat)) s) := by
  subst hn
  rw [exec, execLen, whenIdle_of_idle (s := { s with host := [] }) _ hp]
  rfl

end

/-- Settles O44: the launch clears all that the run reads but the message, and each step of two runs that agree keeps their
agreement; `CW`, `ADDR` and `LEN` end in their launch. -/
theorem resultsDependOnlyOnTheMessage : Obligations.ResultsDependOnlyOnTheMessage := by
  intro i s t hw hs ht hm k
  obtain ⟨hmlen, -⟩ := id hm
  cases i with
  | cw p => exact completedAtLaunch_agree hw (exec_cw_completedAtLaunch p hs) (exec_cw_completedAtLaunch p ht) k
  | addr a => exact completedAtLaunch_agree hw (exec_addr_completedAtLaunch a hs) (exec_addr_completedAtLaunch a ht) k
  | len a =>
    exact completedAtLaunch_agree hw (exec_len_completedAtLaunch a hs hmlen) (exec_len_completedAtLaunch a ht rfl) k
  | pack a =>
    have hrun := (hm.packLaunch a).iterate k
    exact ⟨_, _, runSteps_pack hw hs k, runSteps_pack hw ht k, hrun.sameOutput, hrun.wpos⟩
  | enc a =>
    have hrun := (hm.encLaunch a).iterate k
    exact ⟨_, _, runSteps_enc a hs k, runSteps_enc a ht k, hrun.sameOutput, hrun.wpos⟩

end Sys2Proof.Machine
